-- ==== Sys2Proof/Config.lean ====
section
/-! DEFINITION. The size parameters of the core, all fixed by the spec (spec/00_scope.md R6: "None is left to the
implementation"). There is no free value here: the spec gives every open behaviour a definite treatment
(93_implementation_defined.md, the end of Part 1). -/

namespace Sys2Proof.Config

/-- `MEM_WORDS`: the number of memory words, addresses 0..32767; the pc is reduced by it after every fetch (R6, 10_state.md R35). -/
abbrev memWords : Nat := 32768

/-- `ARITH_MOD`: the modulus of `add` and `mult` (R6). -/
abbrev arithMod : Nat := 32768

/-- `STACK_CAP`: the capacity of the stack in entries (R6). -/
abbrev stackCap : Nat := 4096

/-- `NUM_REGS`: the number of general registers (R6). -/
abbrev numRegs : Nat := 8

/-- `LIT_MAX`: the largest literal operand word (R6). -/
abbrev litMax : Nat := 0x7FFF

/-- `REG_BASE`: the operand word that names register 0 (R6). -/
abbrev regBase : Nat := 0x8000

/-- `REG_LAST`: the operand word that names register 7 (R6). -/
abbrev regLast : Nat := 0x8007

/-- `INVALID_MIN`: the smallest invalid operand word (R6). -/
abbrev invalidMin : Nat := 0x8008

/-- `MAX_OPERANDS`: the largest operand count of any opcode (R6). -/
abbrev maxOperands : Nat := 3

@[simp] theorem memWords_eq : memWords = 32768 := rfl
@[simp] theorem arithMod_eq : arithMod = 32768 := rfl
@[simp] theorem stackCap_eq : stackCap = 4096 := rfl
@[simp] theorem numRegs_eq : numRegs = 8 := rfl
@[simp] theorem litMax_eq : litMax = 0x7FFF := rfl
@[simp] theorem regBase_eq : regBase = 0x8000 := rfl
@[simp] theorem regLast_eq : regLast = 0x8007 := rfl
@[simp] theorem invalidMin_eq : invalidMin = 0x8008 := rfl
@[simp] theorem maxOperands_eq : maxOperands = 3 := rfl

end Sys2Proof.Config
end

