-- ==== Sys2Proof/Word.lean ====
section
/-! DEFINITION. The two bit-vector types of the core: the 16-bit word and the 8-bit byte. -/

namespace Sys2Proof

/-- The machine's value unit: a register, a memory word, a stack slot, the pc, an instruction word
(spec/00_scope.md R7). Every word is read as an unsigned integer 0..65535 (R8). -/
abbrev Word := BitVec 16

/-- The byte an `Output` event carries and WRITE_INPUT takes (00_scope.md R6, `OUT_BITS`), and the
unit of the program image (20_memory.md R66). -/
abbrev Byte := BitVec 8

end Sys2Proof
end

