-- ==== Sys2Proof/Syntax.lean ====
section
/-! DEFINITION. The instruction set as data: operand words by class, the 22 opcodes, and one constructor of `Instr` per row
of spec/opcode_table.json. -/

namespace Sys2Proof

/-- An operand word by its class, "the core's only addressing mode selector" (spec/30_encoding.md R95).
The class is a function of the word alone, so the decoder takes it once (log entry 3). -/
inductive Operand where
  /-- 0x0000..0x7FFF: a 15-bit unsigned immediate in bits 14:0 (R96). -/
  | lit (n : BitVec 15)
  /-- 0x8000..0x8007: a reference to register `i`. -/
  | reg (i : Fin 8)
  /-- 0x8008..0xFFFF: the invalid word `w`, which faults when read as a value or used as a destination. -/
  | invalid (w : Word)
  deriving DecidableEq, Repr

/-- The 22 opcodes by mnemonic (30_encoding.md R93); `inp` is the spec's `in`, which Lean reserves. -/
inductive Opcode where
  | halt | set | push | pop | eq | gt | jmp | jt | jf | add | mult | mod
  | and | or | not | rmem | wmem | call | ret | out | inp | noop
  deriving DecidableEq, Repr

/-- An instruction: an opcode with its operand words in encoding order a, b, c (R91). -/
inductive Instr where
  /-- Opcode 0 (45_io_and_system.md R203). -/
  | halt
  /-- Opcode 1, kinds D V (43_stack_and_move.md R182). -/
  | set (a b : Operand)
  /-- Opcode 2, kind V (43_stack_and_move.md R183). -/
  | push (a : Operand)
  /-- Opcode 3, kind D (43_stack_and_move.md R184). -/
  | pop (a : Operand)
  /-- Opcode 4, kinds D V V (41_arith_logic_compare.md R147). -/
  | eq (a b c : Operand)
  /-- Opcode 5, kinds D V V (41_arith_logic_compare.md R148). -/
  | gt (a b c : Operand)
  /-- Opcode 6, kind V (42_control_flow.md R160). -/
  | jmp (a : Operand)
  /-- Opcode 7, kinds V V (42_control_flow.md R161). -/
  | jt (a b : Operand)
  /-- Opcode 8, kinds V V (42_control_flow.md R162). -/
  | jf (a b : Operand)
  /-- Opcode 9, kinds D V V (41_arith_logic_compare.md R141). -/
  | add (a b c : Operand)
  /-- Opcode 10, kinds D V V (41_arith_logic_compare.md R142). -/
  | mult (a b c : Operand)
  /-- Opcode 11, kinds D V V (41_arith_logic_compare.md R143). -/
  | mod (a b c : Operand)
  /-- Opcode 12, kinds D V V (41_arith_logic_compare.md R144). -/
  | and (a b c : Operand)
  /-- Opcode 13, kinds D V V (41_arith_logic_compare.md R145). -/
  | or (a b c : Operand)
  /-- Opcode 14, kinds D V (41_arith_logic_compare.md R146). -/
  | not (a b : Operand)
  /-- Opcode 15, kinds D V (44_memory_access.md R191). -/
  | rmem (a b : Operand)
  /-- Opcode 16, kinds V V (44_memory_access.md R192). -/
  | wmem (a b : Operand)
  /-- Opcode 17, kind V (42_control_flow.md R163). -/
  | call (a : Operand)
  /-- Opcode 18 (42_control_flow.md R164). -/
  | ret
  /-- Opcode 19, kind V (45_io_and_system.md R200). -/
  | out (a : Operand)
  /-- Opcode 20, `in`, kind W: the raw operand word, never classified (45_io_and_system.md R201, 30_encoding.md R94). -/
  | inp (w : Word)
  /-- Opcode 21 (45_io_and_system.md R202). -/
  | noop
  deriving DecidableEq, Repr

end Sys2Proof
end

