-- ==== Sys2Proof/WellFormed.lean ====
section
/-! DEFINITION. Which terms of `Instr` are instructions of the machine: every operand is the class of some operand word. -/

namespace Sys2Proof

/-- An operand term stands for an operand word of its class (spec/30_encoding.md R95). Literals and
register references are bounded by their types; an invalid word must be 0x8008 or above. -/
def Operand.wf : Operand → Bool
  | .lit _ => true
  | .reg _ => true
  | .invalid w => decide (0x8008 ≤ w.toNat)

/-- Every classified operand of the instruction is well formed. The raw operand of `in` is any word (R94, kind W). -/
def Instr.wf : Instr → Bool
  | .halt => true
  | .set a b => a.wf && b.wf
  | .push a => a.wf
  | .pop a => a.wf
  | .eq a b c => a.wf && b.wf && c.wf
  | .gt a b c => a.wf && b.wf && c.wf
  | .jmp a => a.wf
  | .jt a b => a.wf && b.wf
  | .jf a b => a.wf && b.wf
  | .add a b c => a.wf && b.wf && c.wf
  | .mult a b c => a.wf && b.wf && c.wf
  | .mod a b c => a.wf && b.wf && c.wf
  | .and a b c => a.wf && b.wf && c.wf
  | .or a b c => a.wf && b.wf && c.wf
  | .not a b => a.wf && b.wf
  | .rmem a b => a.wf && b.wf
  | .wmem a b => a.wf && b.wf
  | .call a => a.wf
  | .ret => true
  | .out a => a.wf
  | .inp _ => true
  | .noop => true

end Sys2Proof
end

