-- ==== Sys2Proof/Decode.lean ====
section
/-! DEFINITION. Operand classification, the opcode map, the decoder (total, rejecting by name), the encoder, the decoder
contract and the disassembler's walk (spec/30_encoding.md). -/

namespace Sys2Proof

/-! ## Operand words (R95) -/

/-- `IsLit(w)`: bit 15 is 0. -/
abbrev IsLit (w : Word) : Prop := w.toNat ≤ Config.litMax

/-- `IsReg(w)`: the word is 0x8000..0x8007. -/
abbrev IsReg (w : Word) : Prop := Config.regBase ≤ w.toNat ∧ w.toNat ≤ Config.regLast

/-- `IsInvalid(w)`: the word is 0x8008 or above. -/
abbrev IsInvalid (w : Word) : Prop := Config.invalidMin ≤ w.toNat

/-- `RegIdx(w)`: the field `w[2:0]`, which is `w - 0x8000` for a register reference. -/
def regIdx (w : Word) : Fin 8 := ⟨w.toNat % 8, Nat.mod_lt _ (by decide)⟩

/-- The class of an operand word. -/
def Operand.ofWord (w : Word) : Operand :=
  if IsLit w then .lit (w.setWidth 15)
  else if IsReg w then .reg (regIdx w)
  else .invalid w

/-- The operand word a classified operand stands for. -/
def Operand.word : Operand → Word
  | .lit n => n.setWidth 16
  | .reg i => BitVec.ofNat 16 (Config.regBase + i.val)
  | .invalid w => w

/-! ## The opcode map (R93) -/

/-- The opcode a word names, compared as a full 16-bit value (R92); none for 22..65535 (R97). -/
def Opcode.ofWord (w : Word) : Option Opcode :=
  match w.toNat with
  | 0 => some .halt
  | 1 => some .set
  | 2 => some .push
  | 3 => some .pop
  | 4 => some .eq
  | 5 => some .gt
  | 6 => some .jmp
  | 7 => some .jt
  | 8 => some .jf
  | 9 => some .add
  | 10 => some .mult
  | 11 => some .mod
  | 12 => some .and
  | 13 => some .or
  | 14 => some .not
  | 15 => some .rmem
  | 16 => some .wmem
  | 17 => some .call
  | 18 => some .ret
  | 19 => some .out
  | 20 => some .inp
  | 21 => some .noop
  | _ => none

/-- The opcode word of an opcode. -/
def Opcode.word : Opcode → Word
  | .halt => 0x0000
  | .set => 0x0001
  | .push => 0x0002
  | .pop => 0x0003
  | .eq => 0x0004
  | .gt => 0x0005
  | .jmp => 0x0006
  | .jt => 0x0007
  | .jf => 0x0008
  | .add => 0x0009
  | .mult => 0x000A
  | .mod => 0x000B
  | .and => 0x000C
  | .or => 0x000D
  | .not => 0x000E
  | .rmem => 0x000F
  | .wmem => 0x0010
  | .call => 0x0011
  | .ret => 0x0012
  | .out => 0x0013
  | .inp => 0x0014
  | .noop => 0x0015

/-- The number of operand words that follow the opcode word, a function of the opcode alone (R90, R91). -/
def Opcode.operandCount : Opcode → Nat
  | .halt | .ret | .noop => 0
  | .push | .pop | .jmp | .call | .out | .inp => 1
  | .set | .jt | .jf | .not | .rmem | .wmem => 2
  | .eq | .gt | .add | .mult | .mod | .and | .or => 3

/-! ## From words to instructions -/

/-- The instruction of an opcode and the operand words that follow it; the words past its operand count play no part. -/
def Opcode.instr (k : Opcode) (ws : List Word) : Instr :=
  let a := Operand.ofWord (ws.getD 0 0)
  let b := Operand.ofWord (ws.getD 1 0)
  let c := Operand.ofWord (ws.getD 2 0)
  match k with
  | .halt => .halt
  | .set => .set a b
  | .push => .push a
  | .pop => .pop a
  | .eq => .eq a b c
  | .gt => .gt a b c
  | .jmp => .jmp a
  | .jt => .jt a b
  | .jf => .jf a b
  | .add => .add a b c
  | .mult => .mult a b c
  | .mod => .mod a b c
  | .and => .and a b c
  | .or => .or a b c
  | .not => .not a b
  | .rmem => .rmem a b
  | .wmem => .wmem a b
  | .call => .call a
  | .ret => .ret
  | .out => .out a
  | .inp => .inp (ws.getD 0 0)
  | .noop => .noop

/-- Why a list of words is no instruction. -/
inductive DecodeError where
  /-- The opcode word is 22..65535 (R97). -/
  | illegalOpcode (op : Word)
  /-- The list ends before the instruction does. Inside the core this cannot happen: the fetch wraps (10_state.md R35).
  DESIGN CHOICE outside it (91_not_in_source.md N21, log entry 25). -/
  | truncated
  deriving DecidableEq, Repr

/-- The decoder on a list of instruction words: the instruction at its head and the words after it (R90, R91). -/
def decode (ws : List Word) : Except DecodeError (Instr × List Word) :=
  match ws with
  | [] => .error .truncated
  | op :: rest =>
    match Opcode.ofWord op with
    | none => .error (.illegalOpcode op)
    | some k =>
      if rest.length < k.operandCount then .error .truncated
      else .ok (k.instr rest, rest.drop k.operandCount)

/-- The words of a little-endian byte stream, low byte first (20_memory.md R66); a last odd byte makes no word. -/
def wordsOfBytes : List Byte → List Word
  | lo :: hi :: bs => (hi ++ lo : BitVec (8 + 8)) :: wordsOfBytes bs
  | _ => []

/-- The bytes of a list of words, low byte first (20_memory.md R66). -/
def bytesOfWords : List Word → List Byte
  | [] => []
  | w :: ws => w.extractLsb' 0 8 :: w.extractLsb' 8 8 :: bytesOfWords ws

/-- The decoder on a byte stream: the instruction at its head and the bytes after it (30_encoding.md
R100; two bytes a word, low byte first). -/
def decodeBytes (bs : List Byte) : Except DecodeError (Instr × List Byte) :=
  match decode (wordsOfBytes bs) with
  | .error e => .error e
  | .ok (i, rest) => .ok (i, bs.drop (2 * ((wordsOfBytes bs).length - rest.length)))

/-! ## From instructions to words -/

/-- The opcode of an instruction. -/
def Instr.opcode : Instr → Opcode
  | .halt => .halt
  | .set _ _ => .set
  | .push _ => .push
  | .pop _ => .pop
  | .eq _ _ _ => .eq
  | .gt _ _ _ => .gt
  | .jmp _ => .jmp
  | .jt _ _ => .jt
  | .jf _ _ => .jf
  | .add _ _ _ => .add
  | .mult _ _ _ => .mult
  | .mod _ _ _ => .mod
  | .and _ _ _ => .and
  | .or _ _ _ => .or
  | .not _ _ => .not
  | .rmem _ _ => .rmem
  | .wmem _ _ => .wmem
  | .call _ => .call
  | .ret => .ret
  | .out _ => .out
  | .inp _ => .inp
  | .noop => .noop

/-- The operand words of an instruction in encoding order (R91). -/
def Instr.operandWords : Instr → List Word
  | .halt => []
  | .set a b => [a.word, b.word]
  | .push a => [a.word]
  | .pop a => [a.word]
  | .eq a b c => [a.word, b.word, c.word]
  | .gt a b c => [a.word, b.word, c.word]
  | .jmp a => [a.word]
  | .jt a b => [a.word, b.word]
  | .jf a b => [a.word, b.word]
  | .add a b c => [a.word, b.word, c.word]
  | .mult a b c => [a.word, b.word, c.word]
  | .mod a b c => [a.word, b.word, c.word]
  | .and a b c => [a.word, b.word, c.word]
  | .or a b c => [a.word, b.word, c.word]
  | .not a b => [a.word, b.word]
  | .rmem a b => [a.word, b.word]
  | .wmem a b => [a.word, b.word]
  | .call a => [a.word]
  | .ret => []
  | .out a => [a.word]
  | .inp w => [w]
  | .noop => []

/-- The length of an instruction in words, `1 + operand_count` (R90). -/
def Instr.length (i : Instr) : Nat := 1 + i.opcode.operandCount

/-- The encoder: the opcode word, then the operand words (R90, R91). -/
def encode (i : Instr) : List Word := i.opcode.word :: i.operandWords

/-! ## The decoder contract and the disassembler's walk (R104, R105) -/

/-- What `decode(position, memory)` of R104 returns: the mnemonic, or none for an invalid opcode; the
operand count; the instruction length. -/
structure Decoded where
  mnemonic : Option Opcode
  operandCount : Nat
  length : Nat
  deriving DecidableEq, Repr

/-- The decoder contract of R104 as a function of the word at the position: it never faults and never looks at operand words. -/
def decodeContract (op : Word) : Decoded :=
  match Opcode.ofWord op with
  | some k => ⟨some k, k.operandCount, 1 + k.operandCount⟩
  | none => ⟨none, 0, 1⟩

/-- The disassembler's walk over a buffer (R105): each position it decodes at, with what it decodes
there. `skip` is how many operand words of the current instruction remain. DESIGN CHOICE (log entry 25): an
instruction whose operands run past the buffer's end is listed with its full operand count and length, and the
walk ends there, not wrapping; 91_not_in_source.md N21 says that this is not stated. -/
def listing (pos skip : Nat) : List Word → List (Nat × Decoded)
  | [] => []
  | w :: ws =>
    match skip with
    | k + 1 => listing (pos + 1) k ws
    | 0 => (pos, decodeContract w) :: listing (pos + 1) ((decodeContract w).length - 1) ws

/-! ## The opcode table's numbering of an instruction's bits -/

/-- The words of the longest instruction (4 words) whose low `nbits` bits are those of `w`, the first
word in bits 15:0 and each later one above it, and whose other bits are 0. -/
def tableWords (nbits w : Nat) : List Word :=
  let v := w % 2 ^ nbits
  [BitVec.ofNat 16 v, BitVec.ofNat 16 (v / 2 ^ 16), BitVec.ofNat 16 (v / 2 ^ 32), BitVec.ofNat 16 (v / 2 ^ 48)]

/-- The instruction the decoder reads from an instruction whose bits are `w`, numbered as
spec/opcode_table.json numbers them; none where the decoder refuses. -/
def decodeTableWord (nbits w : Nat) : Option Instr :=
  match decode (tableWords nbits w) with
  | .ok (i, _) => some i
  | .error _ => none

end Sys2Proof
end

