-- ==== Sys2Proof/Machine/State.lean ====
section
/-! DEFINITION. The state of the core as plain data, exactly the tuple of spec/10_state.md R30, the fault kinds, and the
state after RESET. -/

namespace Sys2Proof.Machine

/-- The fault kinds with the value each carries (60_exceptions.md R220), a closed enumeration without
codes (decision D21). A raised fault is a NEXT state whose `fault` field holds it (R229): no step
answers `Host.Outcome.fault` (log entry 4). -/
inductive Fault where
  /-- Raised by any STEP whose opcode word is 22..65535; carries that word (R221). Safe: the spec raises it there. -/
  | illegalOpcode (op : Word)
  /-- Raised by any value operand whose word is 0x8008 or above; carries that word (R222). Safe: the spec raises it there. -/
  | illegalParameterRead (w : Word)
  /-- Raised by a destination operand that is no register reference, and by WRITE_INPUT; carries the destination
  word (R223, decision D7). Safe for the stop; the carried word is the spec's choice among source variants (log entry 8). -/
  | illegalParameterWrite (w : Word)
  /-- Raised by `push` and `call` on a full stack (R224). Safe: the spec raises it there. -/
  | stackOverflow
  /-- Raised by `pop` and `ret` on an empty stack (R225). Safe: the spec raises it there. -/
  | stackUnderflow
  /-- Raised by a STEP whose pc is above 32767, and by `rmem` and `wmem` at an address above 32767; carries
  the address (R226, decisions D4 and D5). Safe: the machine stops where its source says nothing. -/
  | illegalAddress (a : Word)
  /-- Raised by `mod` when the divisor is 0 (R227, decision D6). Safe: the machine stops where its source says nothing. -/
  | divideByZero
  deriving DecidableEq, Repr

/-- Why the model gives an instruction no meaning. No step of this model ends so. -/
inductive Refusal where
  /-- Raised by an arm of `exec` that has no meaning yet; no arm is left so. Safe: nothing is claimed of the instruction. -/
  | notModelled (mnemonic : String)
  deriving DecidableEq, Repr

/-- The run status (10_state.md R42). -/
inductive Status where
  /-- Accepting STEPs. -/
  | running
  /-- Terminal, reached by `halt`. -/
  | halted
  /-- Terminal, carries one fault. -/
  | faulted
  deriving DecidableEq, Repr

/-- What the event latch can hold (10_state.md R44, 60_exceptions.md R235). -/
inductive Event where
  /-- `Output(b)`: a byte for the host. -/
  | output (b : Byte)
  /-- `Input(w)`: a request for a byte, with the raw operand word of `in`, of any class. -/
  | input (w : Word)
  deriving DecidableEq, Repr

/-- Sparse storage of `w`-bit cells by number; an unlisted cell reads 0 (10_state.md R48). The canonical
form: numbers strictly rising, and no entry that holds 0. -/
abbrev Store (w : Nat) := List (Nat × BitVec w)

/-- The memory: 32768 words (20_memory.md R60), held in the layout of the program image (R66, R67), word `a`
in the byte cells `2a` (low) and `2a+1` (high). Only whole words are ever read or written by the core (log entry 1). -/
abbrev Memory := List Host.Cell

/-- The stack buffer: 4096 slots of one word (10_state.md R39), held sparsely (log entry 2). -/
abbrev Stack := Store 16

/-- The complete state of the core (10_state.md R30). -/
structure State where
  /-- The memory `mem` (R60). -/
  mem : Memory
  /-- The general registers `x[0]`..`x[7]` (R31). -/
  x : Vector Word 8
  /-- The program counter, a full 16-bit word (R34). -/
  pc : Word
  /-- The stack buffer `stk`, valid and stale slots alike (R39, R41). -/
  stk : Stack
  /-- The count of valid stack entries, 0..4096 (R40). -/
  sp : Nat
  /-- The run status (R42). -/
  status : Status
  /-- The fault record, none unless the status is Faulted (R43). -/
  fault : Option Fault
  /-- The event latch (R44). -/
  ev : Option Event
  deriving DecidableEq, Repr

/-- The state after RESET (10_state.md R48, 70_reset_and_hazards.md R260). -/
def State.reset : State where
  mem := []
  x := Vector.replicate 8 0
  pc := 0
  stk := []
  sp := 0
  status := .running
  fault := none
  ev := none

end Sys2Proof.Machine
end

