-- ==== Sys2Proof/Machine/Ops.lean ====
section
/-! DEFINITION. The named operations over memory, registers, stack, pc and event latch; fault entry; and the canonical form
of the sparse stores. -/

namespace Sys2Proof.Machine

/-! ## Sparse stores -/

/-- The content of a cell; an unlisted cell holds 0. -/
def Store.read {w : Nat} : Store w → Nat → BitVec w
  | [], _ => 0#w
  | (k, v) :: m, a => if k = a then v else Store.read m a

/-- The store without any entry for cell `a`. -/
def Store.unlist {w : Nat} (m : Store w) (a : Nat) : Store w := m.filter fun c => c.1 != a

/-- The store with the entry `(a, v)` put before the first larger number. -/
def Store.enter {w : Nat} : Store w → Nat → BitVec w → Store w
  | [], a, v => [(a, v)]
  | (k, u) :: m, a, v => if a < k then (a, v) :: (k, u) :: m else (k, u) :: Store.enter m a v

/-- The store after `v` is written to cell `a`. Writing 0 unlists the cell, so equal contents are equal lists. -/
def Store.write {w : Nat} (m : Store w) (a : Nat) (v : BitVec w) : Store w :=
  if v = 0#w then Store.unlist m a else Store.enter (Store.unlist m a) a v

/-- The canonical form from cell `lo` up to `hi` (exclusive): numbers strictly rising, no entry holding 0. -/
def Store.canonicalFrom {w : Nat} (hi : Nat) : Nat → Store w → Bool
  | _, [] => true
  | lo, (k, v) :: m => decide (lo ≤ k) && decide (k < hi) && v != 0#w && Store.canonicalFrom hi (k + 1) m

/-! ## Memory (spec/20_memory.md) -/

/-- The canonical form of the memory: cells 0..65535, two a word for 32768 words. -/
def Memory.wf (m : Memory) : Bool := Store.canonicalFrom (w := 8) (2 * Config.memWords) 0 m

/-- One byte of a memory word, numbered as in the program image (R66): cell `2a` is the low byte of word `a`. -/
def Memory.readByte (m : Memory) (k : Nat) : Byte := Store.read (w := 8) m k

/-- The word at address `a`, `byte[2a] + 256 * byte[2a+1]` (R64, R66). -/
def Memory.readWord (m : Memory) (a : Nat) : Word :=
  (Memory.readByte m (2 * a + 1) ++ Memory.readByte m (2 * a) : BitVec (8 + 8))

/-- The memory after the word `v` is stored at address `a`; no other word changes (R64). -/
def Memory.writeWord (m : Memory) (a : Nat) (v : Word) : Memory :=
  Store.write (w := 8) (Store.write (w := 8) m (2 * a) (v.extractLsb' 0 8)) (2 * a + 1) (v.extractLsb' 8 8)

/-- The memory that holds a byte image from cell `k` on and 0 elsewhere (R67). -/
def Memory.ofImage (k : Nat) : List Byte → Memory
  | [] => []
  | b :: bs => if b = 0#8 then Memory.ofImage (k + 1) bs else (k, b) :: Memory.ofImage (k + 1) bs

/-- The canonical form of the stack buffer: slots 0..4095. -/
def Stack.wf (m : Stack) : Bool := Store.canonicalFrom Config.stackCap 0 m

/-! ## Registers, pc, memory words and slots of the state -/

/-- The content of register `i`, any 16-bit word (10_state.md R31). -/
def State.reg (s : State) (i : Fin 8) : Word := s.x[i.val]

/-- `x[i] <- v` (R31): the full word, no register is hard-wired. -/
def State.setReg (s : State) (i : Fin 8) (v : Word) : State := { s with x := s.x.set i.val v i.isLt }

/-- `pc <- t`: all 16 bits, unmasked (R36). -/
def State.setPc (s : State) (t : Word) : State := { s with pc := t }

/-- `MemRead(a, 1)`: the word at address `a` (20_memory.md R64). -/
def State.wordAt (s : State) (a : Nat) : Word := Memory.readWord s.mem a

/-- `MemWrite(a, 1, v)` (20_memory.md R64). -/
def State.setWord (s : State) (a : Nat) (v : Word) : State := { s with mem := Memory.writeWord s.mem a v }

/-- The content of stack slot `j`, valid or stale (10_state.md R39, R41). -/
def State.slot (s : State) (j : Nat) : Word := Store.read s.stk j

/-- `stk[j] <- v`. -/
def State.setSlot (s : State) (j : Nat) (v : Word) : State := { s with stk := Store.write s.stk j v }

/-- `sp <- n`. -/
def State.setSp (s : State) (n : Nat) : State := { s with sp := n }

/-- `status <- Halted` (45_io_and_system.md R203). -/
def State.halt (s : State) : State := { s with status := .halted }

/-- `emit E`: the event latch takes the event; an unpulled one is overwritten (60_exceptions.md R235, decision D14). -/
def State.emit (s : State) (e : Event) : State := { s with ev := some e }

/-! ## Fault entry -/

/-- `raise K(info)` (60_exceptions.md R229): the status becomes Faulted and the record holds the fault;
nothing else changes. There is no handler and no return from a fault (R232): only RESET leaves Faulted. -/
def State.raise (s : State) (f : Fault) : State := { s with status := .faulted, fault := some f }

/-- A check of the check or execute phase on the state `s` (40_step_fetch_resolve.md R120, R127): if it
fails, its fault is raised on `s`, which has written nothing yet (R128), and the STEP ends; if it passes, the rest `k` runs. -/
def checked {α : Type} (r : Except Fault α) (s : State) (k : α → Host.Outcome State Fault Refusal) :
    Host.Outcome State Fault Refusal :=
  match r with
  | .ok v => k v
  | .error f => .next (s.raise f)

/-! ## Stack primitives (43_stack_and_move.md) -/

/-- `Push(v)` (R180): overflow is checked first; the slot at index `sp` is overwritten. -/
def State.push (s : State) (v : Word) : Except Fault State :=
  if Config.stackCap ≤ s.sp then .error .stackOverflow
  else .ok ((s.setSlot s.sp v).setSp (s.sp + 1))

/-- `Pop()` (R181): underflow is checked first; the popped slot keeps its content. -/
def State.pop (s : State) : Except Fault (Word × State) :=
  if s.sp = 0 then .error .stackUnderflow
  else .ok (s.slot (s.sp - 1), s.setSp (s.sp - 1))

/-! ## Memory access with its range check (20_memory.md R68, 44_memory_access.md R190) -/

/-- The word at a resolved address, or `IllegalAddress` above 32767; never masked, never a register. -/
def State.load (s : State) (addr : Word) : Except Fault Word :=
  if Config.memWords ≤ addr.toNat then .error (.illegalAddress addr) else .ok (s.wordAt addr.toNat)

/-- The state after a store at a resolved address, or `IllegalAddress` above 32767. -/
def State.store (s : State) (addr v : Word) : Except Fault State :=
  if Config.memWords ≤ addr.toNat then .error (.illegalAddress addr) else .ok (s.setWord addr.toNat v)

end Sys2Proof.Machine
end

