-- ==== Sys2Proof/Machine/Operands.lean ====
section
/-! DEFINITION. The addressing-mode resolver: destination validation and value resolution (spec/40_step_fetch_resolve.md). -/

namespace Sys2Proof.Machine

/-- `Dst(w)` (R124): the register a destination operand names, else `IllegalParameterWrite` with the
rejected word. The register's content is not read, and a literal is never a memory address. -/
def dst (a : Operand) : Except Fault (Fin 8) :=
  match a with
  | .reg i => .ok i
  | .lit n => .error (.illegalParameterWrite (Operand.lit n).word)
  | .invalid w => .error (.illegalParameterWrite w)

/-- `Val(w)` (R125): a literal is itself, a register reference is the register's full content (one level
deep), and an invalid word is `IllegalParameterRead` with that word. -/
def State.val (s : State) (a : Operand) : Except Fault Word :=
  match a with
  | .lit n => .ok (Operand.lit n).word
  | .reg i => .ok (s.reg i)
  | .invalid w => .error (.illegalParameterRead w)

end Sys2Proof.Machine
end

