-- ==== Sys2Proof/Machine/Access.lean ====
section
/-! DEFINITION. The memory-access instructions `rmem` and `wmem` (spec/44_memory_access.md). -/

namespace Sys2Proof.Machine

/-- `rmem a, b` (R191): the whole word at the address b is read. -/
def execRmem (a b : Operand) (s : State) : Host.Outcome State Fault Refusal :=
  checked (dst a) s fun d =>
  checked (s.val b) s fun addr =>
  checked (s.load addr) s fun v =>
  .next (s.setReg d v)

/-- `wmem a, b` (R192): operand a is a value operand, the address; the whole word of b is stored. -/
def execWmem (a b : Operand) (s : State) : Host.Outcome State Fault Refusal :=
  checked (s.val a) s fun addr =>
  checked (s.val b) s fun vb =>
  checked (s.store addr vb) s fun t =>
  .next t

end Sys2Proof.Machine
end

