-- ==== Sys2Proof/Machine/Arith.lean ====
section
/-! DEFINITION. The arithmetic and logic instructions `add`, `mult`, `mod`, `and`, `or`, `not`
(spec/41_arith_logic_compare.md). All sources are full unsigned 16-bit words (00_scope.md R8). -/

namespace Sys2Proof.Machine

/-- The sum over the integers, reduced modulo 32768 (R141). -/
def addWords (b c : Word) : Word := BitVec.ofNat 16 ((b.toNat + c.toNat) % Config.arithMod)

/-- The product over the integers, reduced modulo 32768 (R142). -/
def multWords (b c : Word) : Word := BitVec.ofNat 16 ((b.toNat * c.toNat) % Config.arithMod)

/-- The unsigned remainder of `b` by `c`, unmasked, or `DivideByZero` (R143). -/
def modWords (b c : Word) : Except Fault Word :=
  if c = 0 then .error .divideByZero else .ok (BitVec.ofNat 16 (b.toNat % c.toNat))

/-- The bitwise complement masked to the low 15 bits (R146). -/
def notWord (b : Word) : Word := ~~~b &&& 0x7FFF

/-- The common shape of the three-operand instructions that always complete once their operands resolve
(R140): destination, then b, then c are checked, and the result is written to the destination. -/
def binary (f : Word → Word → Word) (a b c : Operand) (s : State) : Host.Outcome State Fault Refusal :=
  checked (dst a) s fun d =>
  checked (s.val b) s fun vb =>
  checked (s.val c) s fun vc =>
  .next (s.setReg d (f vb vc))

/-- `add a, b, c` (R141). -/
def execAdd (a b c : Operand) (s : State) : Host.Outcome State Fault Refusal := binary addWords a b c s

/-- `mult a, b, c` (R142). -/
def execMult (a b c : Operand) (s : State) : Host.Outcome State Fault Refusal := binary multWords a b c s

/-- `mod a, b, c` (R143): dividend b, divisor c; the divisor is checked after the operands. -/
def execMod (a b c : Operand) (s : State) : Host.Outcome State Fault Refusal :=
  checked (dst a) s fun d =>
  checked (s.val b) s fun vb =>
  checked (s.val c) s fun vc =>
  checked (modWords vb vc) s fun r =>
  .next (s.setReg d r)

/-- `and a, b, c` (R144): all 16 bits. -/
def execAnd (a b c : Operand) (s : State) : Host.Outcome State Fault Refusal := binary (· &&& ·) a b c s

/-- `or a, b, c` (R145): all 16 bits. -/
def execOr (a b c : Operand) (s : State) : Host.Outcome State Fault Refusal := binary (· ||| ·) a b c s

/-- `not a, b` (R146). -/
def execNot (a b : Operand) (s : State) : Host.Outcome State Fault Refusal :=
  checked (dst a) s fun d =>
  checked (s.val b) s fun vb =>
  .next (s.setReg d (notWord vb))

end Sys2Proof.Machine
end

