-- ==== Sys2Proof/Machine/Flags.lean ====
section
/-! DEFINITION. The core has no flags, condition codes or predicate registers (spec/10_state.md R38). What stands for a
condition is a word: `eq` and `gt` write 1 or 0, and `jt` and `jf` test all 16 bits of a value. -/

namespace Sys2Proof.Machine

/-- The word a compare writes: 1 for true, 0 for false (41_arith_logic_compare.md R147, R148). -/
def truthWord (p : Bool) : Word := if p then 1 else 0

/-- The test of `jt` and `jf`: any bit of the word is set (42_control_flow.md R161, R162). -/
def isNonzero (w : Word) : Bool := w != 0

end Sys2Proof.Machine
end

