-- ==== Sys2Proof/Machine/Compare.lean ====
section
/-! DEFINITION. The compare instructions `eq` and `gt` (spec/41_arith_logic_compare.md section 4). -/

namespace Sys2Proof.Machine

/-- `eq a, b, c` (R147): 1 if the two values are equal in all 16 bits, else 0. -/
def execEq (a b c : Operand) (s : State) : Host.Outcome State Fault Refusal :=
  binary (fun vb vc => truthWord (decide (vb = vc))) a b c s

/-- `gt a, b, c` (R148): 1 if b is greater than c as unsigned 16-bit numbers, else 0. -/
def execGt (a b c : Operand) (s : State) : Host.Outcome State Fault Refusal :=
  binary (fun vb vc => truthWord (decide (vc.toNat < vb.toNat))) a b c s

end Sys2Proof.Machine
end

