-- ==== Sys2Proof/Machine/Control.lean ====
section
/-! DEFINITION. The control-flow instructions `jmp`, `jt`, `jf`, `call`, `ret` (spec/42_control_flow.md). All assign the pc
unmasked; an out-of-range target is found by the next STEP's fetch (R165). In the state an instruction runs on, the pc is the
post-operand pc (10_state.md R35). -/

namespace Sys2Proof.Machine

/-- `jmp a` (R160). -/
def execJmp (a : Operand) (s : State) : Host.Outcome State Fault Refusal :=
  checked (s.val a) s fun t =>
  .next (s.setPc t)

/-- `jt a, b` (R161): the target is resolved, and can fault, even when the jump is not taken (decision D10). -/
def execJt (a b : Operand) (s : State) : Host.Outcome State Fault Refusal :=
  checked (s.val a) s fun c =>
  checked (s.val b) s fun t =>
  .next (if isNonzero c then s.setPc t else s)

/-- `jf a, b` (R162): as `jt`, taken on zero. -/
def execJf (a b : Operand) (s : State) : Host.Outcome State Fault Refusal :=
  checked (s.val a) s fun c =>
  checked (s.val b) s fun t =>
  .next (if isNonzero c then s else s.setPc t)

/-- `call a` (R163): the target is resolved, then the post-operand pc is pushed, then the pc is assigned. -/
def execCall (a : Operand) (s : State) : Host.Outcome State Fault Refusal :=
  checked (s.val a) s fun t =>
  checked (s.push s.pc) s fun u =>
  .next (u.setPc t)

/-- `ret` (R164): an empty stack is a fault, not a halt. -/
def execRet (s : State) : Host.Outcome State Fault Refusal :=
  checked s.pop s fun p =>
  .next (p.2.setPc p.1)

end Sys2Proof.Machine
end

