-- ==== Sys2Proof/Machine/Move.lean ====
section
/-! DEFINITION. The stack and register-move instructions `set`, `push`, `pop` (spec/43_stack_and_move.md). -/

namespace Sys2Proof.Machine

/-- `set a, b` (R182): the whole word of b is copied. -/
def execSet (a b : Operand) (s : State) : Host.Outcome State Fault Refusal :=
  checked (dst a) s fun d =>
  checked (s.val b) s fun vb =>
  .next (s.setReg d vb)

/-- `push a` (R183). -/
def execPush (a : Operand) (s : State) : Host.Outcome State Fault Refusal :=
  checked (s.val a) s fun va =>
  checked (s.push va) s fun t =>
  .next t

/-- `pop a` (R184): the destination is checked before the stack is touched. -/
def execPop (a : Operand) (s : State) : Host.Outcome State Fault Refusal :=
  checked (dst a) s fun d =>
  checked s.pop s fun p =>
  .next (p.2.setReg d p.1)

end Sys2Proof.Machine
end

