-- ==== Sys2Proof/Machine/System.lean ====
section
/-! DEFINITION. The input, output and system instructions `out`, `in`, `noop`, `halt` (spec/45_io_and_system.md). -/

namespace Sys2Proof.Machine

/-- `out a` (R200): the low 8 bits of the value become the `Output` event; the high bits are dropped. -/
def execOut (a : Operand) (s : State) : Host.Outcome State Fault Refusal :=
  checked (s.val a) s fun va =>
  .next (s.emit (.output (va.extractLsb' 0 8)))

/-- `in a` (R201): the raw operand word becomes the `Input` event; no register is written and nothing can fault. -/
def execInp (w : Word) (s : State) : Host.Outcome State Fault Refusal := .next (s.emit (.input w))

/-- `noop` (R202): no effect beyond the pc advance of its fetch. -/
def execNoop (s : State) : Host.Outcome State Fault Refusal := .next s

/-- `halt` (R203): the status becomes Halted; the event latch is not touched. -/
def execHalt (s : State) : Host.Outcome State Fault Refusal := .next s.halt

end Sys2Proof.Machine
end

