-- ==== Sys2Proof/Machine/Fetch.lean ====
section
/-! DEFINITION. The fetch phase of STEP, the report STEP returns, and the placing of an instruction where the next STEP
fetches (spec/40_step_fetch_resolve.md). -/

namespace Sys2Proof.Machine

/-- The address `n` words after `a` with 15-bit wrap (10_state.md R35, R37). The wrap is of the advanced
value, never of the address a fetch reads. -/
def advance (a : Word) (n : Nat) : Word := BitVec.ofNat 16 ((a.toNat + n) % Config.memWords)

/-- `Fetch()` (R121): the word the pc points at, and the state with the pc advanced and wrapped. -/
def State.fetch (s : State) : Word × State := (s.wordAt s.pc.toNat, s.setPc (advance s.pc 1))

/-- `n` fetches in order (R123): the words, and the state after the last. -/
def State.fetchMany : Nat → State → List Word × State
  | 0, s => ([], s)
  | n + 1, s => (s.fetch.1 :: (State.fetchMany n s.fetch.2).1, (State.fetchMany n s.fetch.2).2)

/-- The fetch phase (R120 to R123): the pc range is checked, the opcode word fetched and decoded, and all
operand words fetched before any of them is checked. The state it answers is the one a fault is
raised on, or the one the instruction runs on, whose pc is the post-operand pc. -/
def State.fetchInstr (s : State) : Except Fault Instr × State :=
  if Config.memWords ≤ s.pc.toNat then (.error (.illegalAddress s.pc), s)
  else
    match Opcode.ofWord s.fetch.1 with
    | none => (.error (.illegalOpcode s.fetch.1), s.fetch.2)
    | some k =>
      let f := State.fetchMany k.operandCount s.fetch.2
      (.ok (k.instr f.1), f.2)

/-- The words a STEP may fetch, from the pc on with 15-bit wrap: as many as the longest instruction has (R90, R91). -/
def State.window (s : State) : List Word :=
  (List.range (1 + Config.maxOperands)).map fun k => s.wordAt ((s.pc.toNat + k) % Config.memWords)

/-- The state with the words `ws` stored from address `a` on, modulo 32768. -/
def State.place (s : State) (a : Nat) : List Word → State
  | [] => s
  | w :: ws => State.place (s.setWord (a % Config.memWords) w) (a + 1) ws

/-- What a STEP returns to the host (R129). -/
inductive Report where
  /-- The instruction completed and the status is still Running. -/
  | continue
  /-- The status is Halted. -/
  | halted
  /-- The status is Faulted; the record it holds (always present in a state a run reaches). -/
  | fault (f : Option Fault)
  deriving DecidableEq, Repr

/-- The report of a STEP, read from the state it leaves (R129, 60_exceptions.md R246). -/
def State.report (t : State) : Report :=
  match t.status with
  | .running => .continue
  | .halted => .halted
  | .faulted => .fault t.fault

end Sys2Proof.Machine
end

