-- ==== Sys2Proof/Machine/Step.lean ====
section
/-! DEFINITION. The STEP transaction (spec/40_step_fetch_resolve.md R120). -/

namespace Sys2Proof.Machine

/-- STEP: nothing unless Running (60_exceptions.md R246); else the fetch phase, whose fault is raised, or
the instruction's check and execute phases. Its report is `State.report` of the state it answers. -/
def step (s : State) : Host.Outcome State Fault Refusal :=
  match s.status with
  | .running =>
    match s.fetchInstr with
    | (.error f, t) => .next (t.raise f)
    | (.ok i, t) => exec i t
  | .halted => .next s
  | .faulted => .next s

/-- The state with an instruction, its bits numbered as spec/opcode_table.json numbers them, stored where
the next STEP fetches. A fetch needs a Running core with no fault record and a pc in range, so those
are set too where they do not hold (log entry 5). -/
def State.withFetchWord (s : State) (nbits w : Nat) : State :=
  let t : State := { s with pc := s.pc &&& 0x7FFF, status := .running, fault := none }
  State.place t t.pc.toNat (tableWords nbits w)

end Sys2Proof.Machine
end

