-- ==== Sys2Proof/Machine/HostPort.lean ====
section
/-! DEFINITION. The host transactions beside STEP: LOAD, PULL_EVENT, WRITE_INPUT and the accessors, one transaction of a
host session, and the run of a dutiful host (spec/60_exceptions.md R245, 70_reset_and_hazards.md). -/

namespace Sys2Proof.Machine

/-! ## LOAD (70_reset_and_hazards.md R261) -/

/-- LOAD of a byte stream into a core whose memory is all zero, as it is directly after RESET (R67): refused
for an odd byte count or more than 32768 words (decision D18); nothing but memory is written. -/
def State.loadImage (s : State) (image : List Byte) : Option State :=
  if image.length % 2 = 0 ∧ image.length ≤ 2 * Config.memWords then
    some { s with mem := Memory.ofImage 0 image }
  else none

/-! ## Events and input (60_exceptions.md R236, 45_io_and_system.md R205) -/

/-- PULL_EVENT: the latched event is returned and the latch cleared, in any status. -/
def State.pullEvent (s : State) : Option Event × State := (s.ev, { s with ev := none })

/-- WRITE_INPUT(dest, byte): nothing unless Running; an invalid destination is a full fault; else the
zero-extended byte is written to the named register. It answers the fault it raises, if any. -/
def State.writeInput (s : State) (dest : Word) (b : Byte) : Option Fault × State :=
  match s.status with
  | .running =>
    match dst (Operand.ofWord dest) with
    | .ok d => (none, s.setReg d (b.setWidth 16))
    | .error f => (some f, s.raise f)
  | .halted => (none, s)
  | .faulted => (none, s)

/-! ## Accessors (10_state.md R49, 60_exceptions.md R247) -/

/-- What an accessor reaches, with its index. -/
inductive Item where
  | pc
  | reg (i : Nat)
  | mem (a : Nat)
  | sp
  | slot (j : Nat)
  deriving DecidableEq, Repr

/-- Accessor read: the current value, or none where the index is out of range. -/
def State.access (s : State) : Item → Option Word
  | .pc => some s.pc
  | .reg i => if h : i < 8 then some (s.reg ⟨i, h⟩) else none
  | .mem a => if a < Config.memWords then some (s.wordAt a) else none
  | .sp => some (BitVec.ofNat 16 s.sp)
  | .slot j => if j < Config.stackCap then some (s.slot j) else none

/-- Accessor write: the item alone is written, in any status; none (refused, nothing written) where the
index is out of range or an `sp` above 4096 is written. -/
def State.assign (s : State) (it : Item) (v : Word) : Option State :=
  match it with
  | .pc => some (s.setPc v)
  | .reg i => if h : i < 8 then some (s.setReg ⟨i, h⟩ v) else none
  | .mem a => if a < Config.memWords then some (s.setWord a v) else none
  | .sp => if v.toNat ≤ Config.stackCap then some (s.setSp v.toNat) else none
  | .slot j => if j < Config.stackCap then some (s.setSlot j v) else none

/-! ## One transaction (60_exceptions.md R245) -/

/-- The host transactions: the whole interface of the core. -/
inductive Transaction where
  | reset
  | load (image : List Byte)
  | step
  | pullEvent
  | writeInput (dest : Word) (b : Byte)
  | access (it : Item)
  | assign (it : Item) (v : Word)
  deriving DecidableEq, Repr

/-- What a transaction returns to the host. -/
inductive Reply where
  | done
  | refused
  | report (r : Report)
  | event (e : Option Event)
  | value (v : Word)
  deriving DecidableEq, Repr

/-- The core as a host drives it. `fresh` says that the last transaction was RESET, so that LOAD is legal
(R261: "directly after RESET"); it is the host's knowledge, not state of the core (R30; log entry 6). -/
structure Session where
  core : State
  fresh : Bool
  deriving DecidableEq, Repr

/-- The session right after RESET. -/
def Session.start : Session := ⟨State.reset, true⟩

/-- The state a STEP leaves. A step always answers a next state; a stop would leave the state as it was. -/
def State.stepped (s : State) : State :=
  match step s with
  | .next t => t
  | .fault _ => s
  | .refused _ => s

/-- One transaction: the reply and the session after it. -/
def Session.transact (σ : Session) : Transaction → Reply × Session
  | .reset => (.done, Session.start)
  | .load image =>
    if σ.fresh then
      match σ.core.loadImage image with
      | some t => (.done, ⟨t, false⟩)
      | none => (.refused, ⟨σ.core, false⟩)
    else (.refused, ⟨σ.core, false⟩)
  | .step => (.report σ.core.stepped.report, ⟨σ.core.stepped, false⟩)
  | .pullEvent => (.event σ.core.pullEvent.1, ⟨σ.core.pullEvent.2, false⟩)
  | .writeInput dest b =>
    match σ.core.writeInput dest b with
    | (none, t) => (.done, ⟨t, false⟩)
    | (some f, t) => (.report (.fault (some f)), ⟨t, false⟩)
  | .access it =>
    match σ.core.access it with
    | some v => (.value v, ⟨σ.core, false⟩)
    | none => (.refused, ⟨σ.core, false⟩)
  | .assign it v =>
    match σ.core.assign it v with
    | some t => (.done, ⟨t, false⟩)
    | none => (.refused, ⟨σ.core, false⟩)

/-- A sequence of transactions: the replies in order and the session after the last (R267). -/
def Session.run (σ : Session) : List Transaction → List Reply × Session
  | [] => ([], σ)
  | t :: ts => ((σ.transact t).1 :: (Session.run (σ.transact t).2 ts).1, (Session.run (σ.transact t).2 ts).2)

/-! ## A dutiful host (70_reset_and_hazards.md R263) -/

/-- The observable behaviour of a run (60_exceptions.md R237): the events in order, and the state at its end. -/
structure Trace where
  events : List Event
  final : State
  deriving DecidableEq, Repr

/-- At most `n` STEPs by a host that keeps its duties: it pulls the event after every STEP, answers each
`Input(w)` once with the next byte of `bytes` for the same `w`, and stops at Halted or Faulted. Where
no byte is left to answer with, the host steps no more (R267, R238). The bytes are a free input of the run. -/
def State.runDutiful : Nat → List Byte → State → Trace
  | 0, _, s => ⟨[], s⟩
  | n + 1, bytes, s =>
    match s.status with
    | .halted => ⟨[], s⟩
    | .faulted => ⟨[], s⟩
    | .running =>
      let t := s.stepped.pullEvent.2
      match s.stepped.pullEvent.1 with
      | none => State.runDutiful n bytes t
      | some (.output b) =>
        let r := State.runDutiful n bytes t
        ⟨.output b :: r.events, r.final⟩
      | some (.input w) =>
        match bytes with
        | [] => ⟨[.input w], t⟩
        | b :: bs =>
          let r := State.runDutiful n bs (t.writeInput w b).2
          ⟨.input w :: r.events, r.final⟩

end Sys2Proof.Machine
end

