-- ==== Sys2Proof/Machine/Image.lean ====
section
/-! DEFINITION. The state image of the host's codec (spec/20_memory.md R77) and the restore from one
(70_reset_and_hazards.md R268). Both are outside the block (00_scope.md R4); they stand here because the layout fixes the
snapshotted state of the core. -/

namespace Sys2Proof.Machine

/-- The number of words of the fixed part of a state image (R77). -/
abbrev imageWords : Nat := 36874

/-- The fixed part of the state image, in words (R77): pc, registers, memory, sp, the whole stack buffer. -/
def State.toImage (s : State) : List Word :=
  [s.pc] ++ s.x.toList ++ (List.range Config.memWords).map s.wordAt ++ [BitVec.ofNat 16 s.sp] ++
    (List.range Config.stackCap).map s.slot

/-- The stack buffer that holds the words from slot `j` on. -/
def Stack.ofWords (j : Nat) : List Word → Stack
  | [] => []
  | w :: ws => if w = 0#16 then Stack.ofWords (j + 1) ws else (j, w) :: Stack.ofWords (j + 1) ws

/-- The core restored from the words of a state image (R268): none if the image is shorter than the fixed
part or its stack pointer is above 4096 (decision D24). Status, fault and event have their reset
values, since the image has none. What follows the fixed part (the auxiliary text) is not read. -/
def State.ofImage (ws : List Word) : Option State :=
  let sp := (ws.getD 32777 0).toNat
  if imageWords ≤ ws.length ∧ sp ≤ Config.stackCap then
    some { State.reset with
      pc := ws.getD 0 0
      x := Vector.ofFn fun i : Fin 8 => ws.getD (1 + i.val) 0
      mem := Memory.ofImage 0 (bytesOfWords ((ws.drop 9).take Config.memWords))
      sp := sp
      stk := Stack.ofWords 0 ((ws.drop 32778).take Config.stackCap) }
  else none

end Sys2Proof.Machine
end

