-- ==== Sys2Proof/Safety.lean ====
section
/-! DEFINITION. What statements about the core are made of: the invariant of its states, when an instruction is due, what an
instruction leaves unchanged, and what a good run is. -/

namespace Sys2Proof

/-! ## Operand kinds (spec/30_encoding.md R94) -/

/-- The destination operand (kind D), where the instruction has one. -/
def Instr.destination : Instr → Option Operand
  | .halt => none
  | .set a _ => some a
  | .push _ => none
  | .pop a => some a
  | .eq a _ _ => some a
  | .gt a _ _ => some a
  | .jmp _ => none
  | .jt _ _ => none
  | .jf _ _ => none
  | .add a _ _ => some a
  | .mult a _ _ => some a
  | .mod a _ _ => some a
  | .and a _ _ => some a
  | .or a _ _ => some a
  | .not a _ => some a
  | .rmem a _ => some a
  | .wmem _ _ => none
  | .call _ => none
  | .ret => none
  | .out _ => none
  | .inp _ => none
  | .noop => none

/-- The value operands (kind V) in the order a, b, c. -/
def Instr.valueOperands : Instr → List Operand
  | .halt => []
  | .set _ b => [b]
  | .push a => [a]
  | .pop _ => []
  | .eq _ b c => [b, c]
  | .gt _ b c => [b, c]
  | .jmp a => [a]
  | .jt a b => [a, b]
  | .jf a b => [a, b]
  | .add _ b c => [b, c]
  | .mult _ b c => [b, c]
  | .mod _ b c => [b, c]
  | .and _ b c => [b, c]
  | .or _ b c => [b, c]
  | .not _ b => [b]
  | .rmem _ b => [b]
  | .wmem a b => [a, b]
  | .call a => [a]
  | .ret => []
  | .out a => [a]
  | .inp _ => []
  | .noop => []

namespace Machine

/-! ## The invariant of states -/

/-- What every state a run reaches keeps: the two stores are canonical and in range (spec/20_memory.md R60,
10_state.md R39), `sp` is 0..4096 (R40), and there is a fault record exactly when the status is Faulted (R43). -/
structure State.Inv (s : State) : Prop where
  mem : Memory.wf s.mem = true
  stk : Stack.wf s.stk = true
  sp : s.sp ≤ 4096
  fault : s.fault.isSome = true ↔ s.status = .faulted

/-! ## When an instruction is due -/

/-- The next STEP runs instruction `i`: the core is Running, the pc is an address, and the words from the pc on decode to `i`. -/
structure State.Due (s : State) (i : Instr) : Prop where
  running : s.status = .running
  inRange : s.pc.toNat ≤ 32767
  decodes : ∃ rest, decode s.window = .ok (i, rest)

/-! ## Writes to a register -/

/-- The transaction, made on the core `s`, writes register `e` (10_state.md R32): a STEP that does not fault, of an
instruction that has it as its destination, a WRITE_INPUT to it while Running, or an accessor write of it. RESET is no
write: it begins the count anew. -/
def Transaction.Writes (tr : Transaction) (s : State) (e : Fin 8) : Prop :=
  match tr with
  | .reset => False
  | .load _ => False
  | .step => s.stepped.status ≠ .faulted ∧ ∃ i, s.Due i ∧ i.destination = some (.reg e)
  | .pullEvent => False
  | .writeInput w _ => s.status = .running ∧ w.toNat = 0x8000 + e.val
  | .access _ => False
  | .assign it _ => it = .reg e.val

/-! ## Accessors (spec/60_exceptions.md R247) -/

/-- The index of what an accessor reaches is out of its range. -/
def Item.OutOfRange (it : Item) : Prop :=
  match it with
  | .pc => False
  | .reg i => 8 ≤ i
  | .mem a => 32768 ≤ a
  | .sp => False
  | .slot j => 4096 ≤ j

/-! ## Frames -/

/-- Every register but those of `except` holds what it held. -/
def State.SameRegs (s t : State) (except : List (Fin 8)) : Prop := ∀ e, e ∉ except → t.reg e = s.reg e

/-- Every memory byte outside the words of `except` holds what it held. -/
def State.SameBytes (s t : State) (except : List Nat) : Prop :=
  ∀ k, k / 2 ∉ except → Memory.readByte t.mem k = Memory.readByte s.mem k

/-- Every stack slot but those of `except` holds what it held, stale slots included. -/
def State.SameSlots (s t : State) (except : List Nat) : Prop := ∀ j, j ∉ except → t.slot j = s.slot j

/-- Status, fault record and event latch are as they were. -/
structure State.SameControl (s t : State) : Prop where
  status : t.status = s.status
  fault : t.fault = s.fault
  ev : t.ev = s.ev

/-- `t` is `s` but for register `d`, which holds `v`. -/
structure State.RegWritten (s t : State) (d : Fin 8) (v : Word) : Prop where
  value : t.reg d = v
  regs : s.SameRegs t [d]
  bytes : s.SameBytes t []
  slots : s.SameSlots t []
  sp : t.sp = s.sp
  pc : t.pc = s.pc
  control : s.SameControl t

/-- `t` is `s` but for the pc, which holds `v`. -/
structure State.PcWritten (s t : State) (v : Word) : Prop where
  value : t.pc = v
  regs : s.SameRegs t []
  bytes : s.SameBytes t []
  slots : s.SameSlots t []
  sp : t.sp = s.sp
  control : s.SameControl t

/-- `t` is `s` with `v` on top of the stack and the pc at `p`. -/
structure State.Pushed (s t : State) (v p : Word) : Prop where
  top : t.slot s.sp = v
  sp : t.sp = s.sp + 1
  pc : t.pc = p
  regs : s.SameRegs t []
  bytes : s.SameBytes t []
  slots : s.SameSlots t [s.sp]
  control : s.SameControl t

/-- `t` is `s` but for the memory word at address `a`, which holds `v`. -/
structure State.WordStored (s t : State) (a : Nat) (v : Word) : Prop where
  value : t.wordAt a = v
  bytes : s.SameBytes t [a]
  regs : s.SameRegs t []
  slots : s.SameSlots t []
  sp : t.sp = s.sp
  pc : t.pc = s.pc
  control : s.SameControl t

/-- `t` is `s` but for the event latch, which holds `e`. -/
structure State.Emitted (s t : State) (e : Event) : Prop where
  value : t.ev = some e
  regs : s.SameRegs t []
  bytes : s.SameBytes t []
  slots : s.SameSlots t []
  sp : t.sp = s.sp
  pc : t.pc = s.pc
  status : t.status = s.status
  fault : t.fault = s.fault

/-- `t` is `s` but for the status and the fault record: fault `f` was taken (60_exceptions.md R229). -/
structure State.Faults (s t : State) (f : Fault) : Prop where
  status : t.status = .faulted
  fault : t.fault = some f
  regs : s.SameRegs t []
  bytes : s.SameBytes t []
  slots : s.SameSlots t []
  sp : t.sp = s.sp
  pc : t.pc = s.pc
  ev : t.ev = s.ev

/-- `t` is `s` with the top entry taken off the stack, which keeps every slot's content, and with `d` the registers
that may differ. -/
structure State.Popped (s t : State) (d : List (Fin 8)) : Prop where
  sp : t.sp = s.sp - 1
  regs : s.SameRegs t d
  bytes : s.SameBytes t []
  slots : s.SameSlots t []
  control : s.SameControl t

/-- What a program can see of two states is the same: they may differ in stale stack slots, in the event latch
and in the fault record (10_state.md R41, R43, R44, R47). -/
structure State.SameToProgram (s t : State) : Prop where
  mem : t.mem = s.mem
  x : t.x = s.x
  pc : t.pc = s.pc
  sp : t.sp = s.sp
  status : t.status = s.status
  valid : ∀ j, j < s.sp → t.slot j = s.slot j

/-! ## Outcomes -/

/-- An outcome is a next state that satisfies `P`. -/
def Answers (o : Host.Outcome State Fault Refusal) (P : State → Prop) : Prop := ∃ t, o = .next t ∧ P t

/-! ## Runs -/

/-- A run has ended (70_reset_and_hazards.md R267). -/
def State.Ended (s : State) : Prop := s.status ≠ .running

/-- A run has ended well: the program executed `halt` (R267). A Faulted end is never a good end. -/
def State.EndedWell (s : State) : Prop := s.status = .halted

end Machine

end Sys2Proof
end

