-- ==== Sys2Proof/Certificates/Slice0/Obligations.lean ====
section
/-! DEFINITION. The statements for the provers. Each docstring names the rule or section of spec/ it formalises. -/

open Sys2Proof Sys2Proof.Machine

/-! ## Encoding (spec/30_encoding.md) -/

/-- Sections 1 to 3, R90 to R95: the decoder gives back every well-formed instruction from its encoding, whatever
words follow, with every operand at every value. -/
def Obligations.DecodeOfEncode : Prop :=
  ∀ (i : Instr) (rest : List Word), i.wf = true → decode (encode i ++ rest) = .ok (i, rest)

/-- Sections 1 to 3, R90 to R95: what the decoder accepts is well formed, and the words it accepted are exactly its
answer's encoding followed by the rest, so no word is dropped or altered. -/
def Obligations.EncodeOfDecode : Prop :=
  ∀ (ws rest : List Word) (i : Instr), decode ws = .ok (i, rest) → i.wf = true ∧ ws = encode i ++ rest

/-- Words written out from the spec decode to the instruction they stand for: R100's `add r0, r0, 5`; of
95_test_vectors.md P1 to P4 and P7 words of the other families; `pop`, `eq` and `gt` from the formats and opcodes of R91
and R93. Opcode word 22 is refused (R97). -/
def Obligations.SpecWordsDecode : Prop :=
  decode [0x0009, 0x8000, 0x8000, 0x0005] = .ok (.add (.reg 0) (.reg 0) (.lit 5), []) ∧
  decode [0x000E, 0x8001, 0x8000] = .ok (.not (.reg 1) (.reg 0), []) ∧
  decode [0x0004, 0x8000, 0x8001, 0x0007] = .ok (.eq (.reg 0) (.reg 1) (.lit 7), []) ∧
  decode [0x0005, 0x8000, 0x0004, 0x8001] = .ok (.gt (.reg 0) (.lit 4) (.reg 1), []) ∧
  decode [0x0001, 0x8000, 0x7FFF] = .ok (.set (.reg 0) (.lit 32767), []) ∧
  decode [0x0002, 0x0001] = .ok (.push (.lit 1), []) ∧
  decode [0x0003, 0x8001] = .ok (.pop (.reg 1), []) ∧
  decode [0x0008, 0x8000, 0x0013] = .ok (.jf (.reg 0) (.lit 19), []) ∧
  decode [0x0011, 0x0008] = .ok (.call (.lit 8), []) ∧
  decode [0x0010, 0x0003, 0x8000] = .ok (.wmem (.lit 3) (.reg 0), []) ∧
  decode [0x0014, 0x8000] = .ok (.inp 0x8000, []) ∧
  decode [0x0000] = .ok (.halt, []) ∧
  decode [0x0016] = .error (.illegalOpcode 0x0016)

/-- R104 with the opcode map of R93: for each opcode word 0..21 the decoder contract gives its mnemonic, operand
count and length; for every other word, the invalid mark, count 0 and length 1; and the engine uses the same
function: what it fetches has the contract's mnemonic, operand count and length. -/
def Obligations.DecoderContractTable : Prop :=
  (∀ row ∈ ([(0, .halt, 0), (1, .set, 2), (2, .push, 1), (3, .pop, 1), (4, .eq, 3), (5, .gt, 3), (6, .jmp, 1),
      (7, .jt, 2), (8, .jf, 2), (9, .add, 3), (10, .mult, 3), (11, .mod, 3), (12, .and, 3), (13, .or, 3), (14, .not, 2),
      (15, .rmem, 2), (16, .wmem, 2), (17, .call, 1), (18, .ret, 0), (19, .out, 1), (20, .inp, 1), (21, .noop, 0)] :
        List (Word × Opcode × Nat)),
    decodeContract row.1 = ⟨some row.2.1, row.2.2, 1 + row.2.2⟩) ∧
  (∀ op : Word, 22 ≤ op.toNat → decodeContract op = ⟨none, 0, 1⟩) ∧
  (∀ s : State, s.pc.toNat ≤ 32767 →
    s.fetchInstr.2.pc =
      BitVec.ofNat 16 ((s.pc.toNat + (decodeContract (s.wordAt s.pc.toNat)).length) % 32768) ∧
    (∀ i, s.fetchInstr.1 = .ok i →
      decodeContract (s.wordAt s.pc.toNat) = ⟨some i.opcode, i.operandWords.length, i.length⟩))

/-- R95: every word is in exactly one class, by its range; a register reference is told by `w[15:3]`, and its
register number is `w - 0x8000 = w[2:0]`. -/
def Obligations.OperandWordClasses : Prop :=
  ∀ w : Word,
    (w.toNat ≤ 0x7FFF ↔ ∃ n, Operand.ofWord w = .lit n) ∧
    (0x8000 ≤ w.toNat ∧ w.toNat ≤ 0x8007 ↔ ∃ i, Operand.ofWord w = .reg i) ∧
    (0x8008 ≤ w.toNat ↔ Operand.ofWord w = .invalid w) ∧
    (w.toNat ≤ 0x7FFF ↔ w.getLsbD 15 = false) ∧
    (0x8000 ≤ w.toNat ∧ w.toNat ≤ 0x8007 ↔ w.extractLsb' 3 13 = 0b1000000000000#13) ∧
    (∀ n, Operand.ofWord w = .lit n → n.toNat = w.toNat) ∧
    (∀ i, Operand.ofWord w = .reg i → i.val = w.toNat - 0x8000 ∧ i.val = (w.extractLsb' 0 3).toNat)

/-! ## Operand resolution, fetch and STEP (spec/40_step_fetch_resolve.md) -/

/-- R125: a literal word resolves to itself, a register reference to the register's full content (one level
deep), and a word of 0x8008 or above is `IllegalParameterRead` with that word. -/
def Obligations.ValResolvesOperandWords : Prop :=
  ∀ (s : State) (w : Word),
    (w.toNat ≤ 0x7FFF → s.val (Operand.ofWord w) = .ok w) ∧
    (∀ i : Fin 8, w.toNat = 0x8000 + i.val → s.val (Operand.ofWord w) = .ok (s.reg i)) ∧
    (0x8008 ≤ w.toNat → s.val (Operand.ofWord w) = .error (.illegalParameterRead w))

/-- 10_state.md R35: every fetch advances the pc by one modulo 32768; an instruction of n operands advances it by
1 + n before it executes; after any fetch the pc is in 0..32767; the pc an instruction runs with is the one `call` pushes. -/
def Obligations.FetchAdvancesPc : Prop :=
  (∀ s : State, s.fetch.2 = { s with pc := BitVec.ofNat 16 ((s.pc.toNat + 1) % 32768) }) ∧
  (∀ s : State, s.fetch.2.pc.toNat ≤ 32767) ∧
  (∀ (s : State) (k : Opcode), s.pc.toNat ≤ 32767 → Opcode.ofWord (s.wordAt s.pc.toNat) = some k →
    s.fetchInstr.2 = { s with pc := BitVec.ofNat 16 ((s.pc.toNat + (1 + k.operandCount)) % 32768) }) ∧
  (∀ (s : State) (a : Operand) (v : Word), s.val a = .ok v → s.sp < 4096 →
    Answers (exec (.call a) s) fun t => t.slot s.sp = s.pc)

/-- R120 to R123: when the words at the pc of a Running core decode to an instruction, STEP is that instruction's
execution on the state whose pc has moved past its words, modulo 32768; all else is as before. That all operand
words are fetched before any check is decisions D8 and D9 (log entry 9). -/
def Obligations.StepRunsDueInstruction : Prop :=
  ∀ (s : State) (i : Instr), s.Due i →
    step s = exec i { s with pc := BitVec.ofNat 16 ((s.pc.toNat + i.length) % 32768) }

/-- Section 1, 45_io_and_system.md section 4: a Running core whose opcode word is 22 or above faults with
`IllegalOpcode` of the whole word, the pc 1 past it (the post-fault pc is decision D9, log entry 9). -/
def Obligations.IllegalOpcodeFaults : Prop :=
  ∀ s : State, s.status = .running → s.pc.toNat ≤ 32767 → 22 ≤ (s.wordAt s.pc.toNat).toNat →
    Answers (step s) fun t =>
      State.Faults { s with pc := BitVec.ofNat 16 ((s.pc.toNat + 1) % 32768) } t (.illegalOpcode (s.wordAt s.pc.toNat))

/-- Decision D4 (log entry 7): a Running core whose pc is above 32767 faults with `IllegalAddress` of the pc, and
the pc keeps its value. -/
def Obligations.PcOutOfRangeFaults : Prop :=
  ∀ s : State, s.status = .running → 32767 < s.pc.toNat →
    Answers (step s) fun t => s.Faults t (.illegalAddress s.pc)

/-- Decision D15 (log entry 10): a STEP of a core that is not Running changes nothing and repeats its report. -/
def Obligations.TerminatedStepChangesNothing : Prop :=
  ∀ s : State, s.status ≠ .running → step s = .next s ∧
    (s.status = .halted → s.report = .halted) ∧ (s.status = .faulted → s.report = .fault s.fault)

/-- R130, and 60_exceptions.md R229 read as a next state (log entry 4): every STEP of every state answers a next state. -/
def Obligations.EveryStepAnswers : Prop := ∀ s : State, ∃ t, step s = .next t

/-! ## Reset (spec/10_state.md R33, R48) -/

/-- R48 and decisions D2, D3 (log entry 14; of the source only the zero memory, registers and stack): every memory
word, register and stack slot is 0, the stack is empty, the pc is 0, the core is Running, with no fault and no event. -/
def Obligations.ResetState : Prop :=
  (∀ a, State.reset.wordAt a = 0) ∧ (∀ i, State.reset.reg i = 0) ∧ (∀ j, State.reset.slot j = 0) ∧
  State.reset.sp = 0 ∧ State.reset.pc = 0 ∧ State.reset.status = .running ∧ State.reset.fault = none ∧
  State.reset.ev = none

/-- R33: a register that nothing has written since reset holds 0, and reading it is legal and returns 0. A
transaction that does not write a register that holds 0 leaves it so, and after any run of transactions from RESET of
which none has written it, it reads 0. That a fault writes no register is decision D9 (log entry 9). -/
def Obligations.UnwrittenRegistersReadZero : Prop :=
  (∀ (σ : Session) (tr : Transaction) (e : Fin 8), σ.core.reg e = 0 → ¬ tr.Writes σ.core e →
    (σ.transact tr).2.core.reg e = 0 ∧ (σ.transact tr).2.core.val (.reg e) = .ok 0) ∧
  (∀ (trs : List Transaction) (e : Fin 8),
    (∀ before tr after, trs = before ++ tr :: after → ¬ tr.Writes (Session.start.run before).2.core e) →
    (Session.start.run trs).2.core.reg e = 0 ∧ (Session.start.run trs).2.core.val (.reg e) = .ok 0)

/-! ## Arithmetic, logic, compare (spec/41_arith_logic_compare.md) -/

/-- Section 2, `add`: the destination takes the integer sum modulo 32768 and nothing else changes. That b and c
are value operands is general knowledge (G3, log entry 15), here and in the rest of this section. -/
def Obligations.AddResult : Prop :=
  ∀ (s : State) (d : Fin 8) (b c : Operand) (vb vc : Word), s.val b = .ok vb → s.val c = .ok vc →
    Answers (exec (.add (.reg d) b c) s) fun t =>
      s.RegWritten t d (BitVec.ofNat 16 ((vb.toNat + vc.toNat) % 32768))

/-- Section 2, `mult`: the destination takes the integer product modulo 32768 and nothing else changes. -/
def Obligations.MultResult : Prop :=
  ∀ (s : State) (d : Fin 8) (b c : Operand) (vb vc : Word), s.val b = .ok vb → s.val c = .ok vc →
    Answers (exec (.mult (.reg d) b c) s) fun t =>
      s.RegWritten t d (BitVec.ofNat 16 ((vb.toNat * vc.toNat) % 32768))

/-- Section 2, `mod` with a divisor that is not 0: the destination takes the unsigned remainder, unmasked, below the
divisor and not above the dividend, and nothing else changes. The operand order and the unsigned reading are
general knowledge G1 and decisions D11, D12 (log entries 15 and 16). -/
def Obligations.ModResult : Prop :=
  ∀ (s : State) (d : Fin 8) (b c : Operand) (vb vc : Word), s.val b = .ok vb → s.val c = .ok vc → vc ≠ 0 →
    Answers (exec (.mod (.reg d) b c) s) fun t =>
      s.RegWritten t d (BitVec.ofNat 16 (vb.toNat % vc.toNat)) ∧
      (t.reg d).toNat < vc.toNat ∧ (t.reg d).toNat ≤ vb.toNat

/-- Section 3, `and` and `or`: each of the 16 bits of the destination is the and, or the or, of the sources' bits,
and nothing else changes. -/
def Obligations.AndOrResult : Prop :=
  ∀ (s : State) (d : Fin 8) (b c : Operand) (vb vc : Word), s.val b = .ok vb → s.val c = .ok vc →
    (Answers (exec (.and (.reg d) b c) s) fun t =>
      s.RegWritten t d (vb &&& vc) ∧ ∀ k, (t.reg d).getLsbD k = (vb.getLsbD k && vc.getLsbD k)) ∧
    (Answers (exec (.or (.reg d) b c) s) fun t =>
      s.RegWritten t d (vb ||| vc) ∧ ∀ k, (t.reg d).getLsbD k = (vb.getLsbD k || vc.getLsbD k))

/-- Section 3, `not`: the destination takes `32767 - (vb mod 32768)`, the complement masked to the low 15 bits,
and nothing else changes. -/
def Obligations.NotResult : Prop :=
  ∀ (s : State) (d : Fin 8) (b : Operand) (vb : Word), s.val b = .ok vb →
    Answers (exec (.not (.reg d) b) s) fun t =>
      s.RegWritten t d (BitVec.ofNat 16 (32767 - vb.toNat % 32768))

/-- Section 4, `eq` and `gt`: the destination takes 1 or 0, by equality in all 16 bits and by the unsigned
comparison b > c, and nothing else changes (general knowledge G1, decisions D11, D12; log entries 15 and 16). -/
def Obligations.EqGtResult : Prop :=
  ∀ (s : State) (d : Fin 8) (b c : Operand) (vb vc : Word), s.val b = .ok vb → s.val c = .ok vc →
    (Answers (exec (.eq (.reg d) b c) s) fun t => s.RegWritten t d (if vb.toNat = vc.toNat then 1 else 0)) ∧
    (Answers (exec (.gt (.reg d) b c) s) fun t => s.RegWritten t d (if vc.toNat < vb.toNat then 1 else 0))

/-- Section 5 and 90_conflicts.md C1: `add`, `mult`, `eq`, `gt` and `not` never write a word with bit 15 set, and
with sources below 32768 neither do `and` and `or`, nor `mod` by a divisor that is not 0. -/
def Obligations.ResultsBelowBit15 : Prop :=
  ∀ (s : State) (d : Fin 8) (b c : Operand) (vb vc : Word), s.val b = .ok vb → s.val c = .ok vc →
    (∀ mk ∈ [Instr.add, Instr.mult, Instr.eq, Instr.gt],
      Answers (exec (mk (.reg d) b c) s) fun t => (t.reg d).toNat ≤ 32767) ∧
    (Answers (exec (.not (.reg d) b) s) fun t => (t.reg d).toNat ≤ 32767) ∧
    (vb.toNat ≤ 32767 → vc.toNat ≤ 32767 →
      (∀ mk ∈ [Instr.and, Instr.or], Answers (exec (mk (.reg d) b c) s) fun t => (t.reg d).toNat ≤ 32767) ∧
      (vc ≠ 0 → Answers (exec (.mod (.reg d) b c) s) fun t => (t.reg d).toNat ≤ 32767))

/-! ## Stack and move (spec/43_stack_and_move.md) -/

/-- R180, `Push(v)`: overflow on a full stack; else the slot at index `sp` takes v, every other slot keeps its
content, and `sp` grows by one. -/
def Obligations.PushPrimitive : Prop :=
  ∀ (s : State) (v : Word),
    (s.sp = 4096 → s.push v = .error .stackOverflow) ∧
    (s.sp < 4096 → ∃ t, s.push v = .ok t ∧ t.slot s.sp = v ∧ (∀ j, j ≠ s.sp → t.slot j = s.slot j) ∧
      t = { s with stk := t.stk, sp := s.sp + 1 })

/-- R181, `Pop()`: underflow on an empty stack; else the top is returned, `sp` shrinks by one and every slot keeps
its content; and a pop after a push returns the pushed word. -/
def Obligations.PopPrimitive : Prop :=
  ∀ s : State,
    (s.sp = 0 → s.pop = .error .stackUnderflow) ∧
    (0 < s.sp → s.pop = .ok (s.slot (s.sp - 1), { s with sp := s.sp - 1 })) ∧
    (∀ v t, s.sp < 4096 → s.push v = .ok t → t.pop = .ok (v, { t with sp := s.sp }))

/-- Section 2, `set`: the destination takes the whole value and nothing else changes (general knowledge G1, decision
D11, log entry 15). -/
def Obligations.SetResult : Prop :=
  ∀ (s : State) (d : Fin 8) (b : Operand) (vb : Word), s.val b = .ok vb →
    Answers (exec (.set (.reg d) b) s) fun t => s.RegWritten t d vb

/-- Section 2, `push`: with room on the stack the value is pushed and nothing else changes. -/
def Obligations.PushResult : Prop :=
  ∀ (s : State) (a : Operand) (v : Word), s.val a = .ok v → s.sp < 4096 →
    Answers (exec (.push a) s) fun t => s.Pushed t v s.pc

/-- Section 2, `pop`: with an entry on the stack the destination takes the top word; the popped slot keeps its
content and nothing else changes. -/
def Obligations.PopResult : Prop :=
  ∀ (s : State) (d : Fin 8), 0 < s.sp →
    Answers (exec (.pop (.reg d)) s) fun t =>
      s.Popped t [d] ∧ t.reg d = s.slot (s.sp - 1) ∧ t.pc = s.pc

/-! ## Control flow (spec/42_control_flow.md) -/

/-- Section 1, `jmp`: the pc takes the resolved target, all 16 bits, and nothing else changes. -/
def Obligations.JmpResult : Prop :=
  ∀ (s : State) (a : Operand) (v : Word), s.val a = .ok v →
    Answers (exec (.jmp a) s) fun t => s.PcWritten t v

/-- Section 1, `jt` and `jf`: the pc takes the resolved target if the test value is nonzero, respectively zero, in
all 16 bits, and stays otherwise; nothing else changes (general knowledge G1, decisions D11, D12; log entries 15
and 16). -/
def Obligations.JtJfResult : Prop :=
  ∀ (s : State) (a b : Operand) (c v : Word), s.val a = .ok c → s.val b = .ok v →
    (Answers (exec (.jt a b) s) fun t => s.PcWritten t (if c.toNat = 0 then s.pc else v)) ∧
    (Answers (exec (.jf a b) s) fun t => s.PcWritten t (if c.toNat = 0 then v else s.pc))

/-- Section 2, `call`: with room on the stack the post-operand pc is pushed, the pc takes the resolved target, and
nothing else changes. -/
def Obligations.CallResult : Prop :=
  ∀ (s : State) (a : Operand) (v : Word), s.val a = .ok v → s.sp < 4096 →
    Answers (exec (.call a) s) fun t => s.Pushed t s.pc v

/-- Section 2, `ret`: with an entry on the stack the pc takes the top word, all 16 bits; the popped slot keeps its
content and nothing else changes. -/
def Obligations.RetResult : Prop :=
  ∀ s : State, 0 < s.sp →
    Answers (exec .ret s) fun t => s.Popped t [] ∧ t.pc = s.slot (s.sp - 1)

/-- Section 2: after a `call` that completes, a `ret` on any state with the same stack goes to the instruction
after the `call` and leaves the stack count as it was before. -/
def Obligations.CallThenRetReturns : Prop :=
  ∀ (s : State) (a : Operand) (v : Word), s.val a = .ok v → s.sp < 4096 →
    Answers (exec (.call a) s) fun t =>
      ∀ u : State, u.stk = t.stk → u.sp = t.sp → Answers (exec .ret u) fun r => r.pc = s.pc ∧ r.sp = s.sp

/-! ## Memory access (spec/44_memory_access.md) -/

/-- Section 2, `rmem` at an address up to 32767: the destination takes the whole word there and nothing else changes
(general knowledge G1, decision D11, log entry 15). -/
def Obligations.RmemResult : Prop :=
  ∀ (s : State) (d : Fin 8) (b : Operand) (addr : Word), s.val b = .ok addr → addr.toNat ≤ 32767 →
    Answers (exec (.rmem (.reg d) b) s) fun t => s.RegWritten t d (s.wordAt addr.toNat)

/-- Section 2, `wmem` at an address up to 32767: the word there takes the whole value, every byte outside it and all
else keep their content (general knowledge G1, decision D11, log entry 15). -/
def Obligations.WmemResult : Prop :=
  ∀ (s : State) (a b : Operand) (addr v : Word), s.val a = .ok addr → s.val b = .ok v → addr.toNat ≤ 32767 →
    Answers (exec (.wmem a b) s) fun t => s.WordStored t addr.toNat v

/-! ## Input, output and system (spec/45_io_and_system.md) -/

/-- Section 1, `out`: the event latch takes `Output` of the value's low 8 bits, and nothing else changes;
an event not yet pulled is overwritten (decision D14, log entry 17). -/
def Obligations.OutResult : Prop :=
  ∀ (s : State) (a : Operand) (v : Word), s.val a = .ok v →
    Answers (exec (.out a) s) fun t => s.Emitted t (.output (BitVec.ofNat 8 (v.toNat % 256)))

/-- R201, `in`: for every raw operand word the event latch takes `Input` of that word, whatever its class, and
nothing else changes; a STEP of it moves the pc by 2 and reports `Continue`. That an event not yet pulled is
overwritten is decision D14 (log entry 17). -/
def Obligations.InResult : Prop :=
  ∀ (s : State) (w : Word),
    (Answers (exec (.inp w) s) fun t => s.Emitted t (.input w)) ∧
    (s.Due (.inp w) → Answers (step s) fun t =>
      State.Emitted { s with pc := BitVec.ofNat 16 ((s.pc.toNat + 2) % 32768) } t (.input w) ∧ t.report = .continue)

/-- R202, `noop`: nothing changes; a STEP of it moves the pc by 1, changes nothing else and reports `Continue`. -/
def Obligations.NoopResult : Prop :=
  ∀ s : State, exec .noop s = .next s ∧
    (s.Due .noop → Answers (step s) fun t =>
      t = { s with pc := BitVec.ofNat 16 ((s.pc.toNat + 1) % 32768) } ∧ t.report = .continue)

/-- R203, `halt`: the status becomes Halted and nothing else changes, the event latch included; a STEP of it moves
the pc by 1 and reports `Halted`, and a further STEP does nothing (decision D15, log entry 10). -/
def Obligations.HaltResult : Prop :=
  ∀ s : State, exec .halt s = .next { s with status := .halted } ∧
    (s.Due .halt → Answers (step s) fun t =>
      t = { s with pc := BitVec.ofNat 16 ((s.pc.toNat + 1) % 32768), status := .halted } ∧ t.report = .halted ∧
      step t = .next t)

/-! ## Faults (spec/60_exceptions.md) -/

/-- Section 1, decisions D7 to D9 (log entries 8 and 9): every instruction with a destination operand faults with
`IllegalParameterWrite` of its word if it is no register reference, whatever the other operands and the
stack are, and has written nothing. -/
def Obligations.DestinationFaults : Prop :=
  ∀ (s : State) (i : Instr) (a : Operand), i.destination = some a → (∀ d, a ≠ .reg d) →
    Answers (exec i s) fun t => s.Faults t (.illegalParameterWrite a.word)

/-- Section 1, decisions D8 to D10 (log entry 9): every instruction whose destination is good faults with
`IllegalParameterRead` of its first invalid value operand, used or not, and has written nothing. That b and
c of the destination-first instructions and both operands of `wmem` are value operands is general knowledge G3 and
decision D11 (log entry 15). -/
def Obligations.ValueOperandFaults : Prop :=
  ∀ (s : State) (i : Instr) (before after : List Operand) (w : Word),
    (∀ a, i.destination = some a → ∃ d, a = .reg d) → i.valueOperands = before ++ .invalid w :: after →
    (∀ o ∈ before, ∀ u, o ≠ .invalid u) →
    Answers (exec i s) fun t => s.Faults t (.illegalParameterRead w)

/-- Section 1, decisions D5, D6, D9, D13 (log entries 7, 9 and 11): with good operands, `mod` by 0 is `DivideByZero`, `rmem`
and `wmem` above 32767 are `IllegalAddress` of the address, `push` and `call` on a full stack are
`StackOverflow`, `pop` and `ret` on an empty one are `StackUnderflow`; none has written anything. That c is the
divisor of `mod`, b the address of `rmem` and a that of `wmem`, and that all of them are value operands compared
unsigned, is general knowledge G1 and G3 and decisions D11 and D12 (log entries 15 and 16). -/
def Obligations.ExecutePhaseFaults : Prop :=
  (∀ (s : State) (d : Fin 8) (b c : Operand) (vb : Word), s.val b = .ok vb → s.val c = .ok 0 →
    Answers (exec (.mod (.reg d) b c) s) fun t => s.Faults t .divideByZero) ∧
  (∀ (s : State) (d : Fin 8) (b : Operand) (addr : Word), s.val b = .ok addr → 32767 < addr.toNat →
    Answers (exec (.rmem (.reg d) b) s) fun t => s.Faults t (.illegalAddress addr)) ∧
  (∀ (s : State) (a b : Operand) (addr v : Word), s.val a = .ok addr → s.val b = .ok v → 32767 < addr.toNat →
    Answers (exec (.wmem a b) s) fun t => s.Faults t (.illegalAddress addr)) ∧
  (∀ (s : State) (a : Operand) (v : Word), s.val a = .ok v → s.sp = 4096 →
    (Answers (exec (.push a) s) fun t => s.Faults t .stackOverflow) ∧
    (Answers (exec (.call a) s) fun t => s.Faults t .stackOverflow)) ∧
  (∀ (s : State) (d : Fin 8), s.sp = 0 →
    (Answers (exec (.pop (.reg d)) s) fun t => s.Faults t .stackUnderflow) ∧
    (Answers (exec .ret s) fun t => s.Faults t .stackUnderflow))

/-- Section 2, decision D9 (log entry 9): whatever faulted, a STEP that leaves a Running core Faulted has changed
nothing but the pc, the status and the fault record, which now holds a fault. -/
def Obligations.FaultedStepWritesNothing : Prop :=
  ∀ s t : State, s.status = .running → step s = .next t → t.status = .faulted →
    ∃ f, t = { s with pc := t.pc, status := .faulted, fault := some f }

/-! ## Whole-machine rules

They hold of a fault's next state too, by decision D9 (log entry 9). -/

/-- 10_state.md section 6: a Running core is Halted by a STEP exactly when the instruction due is `halt`. -/
def Obligations.OnlyHaltHalts : Prop :=
  ∀ s t : State, s.status = .running → step s = .next t → (t.status = .halted ↔ s.Due .halt)

/-- 20_memory.md section 1: no instruction but `wmem` changes a byte of memory. -/
def Obligations.OnlyWmemWritesMemory : Prop :=
  ∀ (i : Instr) (s t : State), (∀ a b, i ≠ .wmem a b) → exec i s = .next t → s.SameBytes t []

/-- 10_state.md section 2: no instruction changes a register but the one its destination operand names. -/
def Obligations.OnlyDestinationWritten : Prop :=
  ∀ (i : Instr) (s t : State) (e : Fin 8), i.destination ≠ some (.reg e) → exec i s = .next t → t.reg e = s.reg e

/-- 10_state.md section 5: no instruction but `push`, `pop`, `call` and `ret` changes a stack slot or the count. -/
def Obligations.OnlyStackInstructionsTouchStack : Prop :=
  ∀ (i : Instr) (s t : State), i.opcode ∉ [Opcode.push, .pop, .call, .ret] → exec i s = .next t →
    s.SameSlots t [] ∧ t.sp = s.sp

/-- 60_exceptions.md section 4: no instruction but `out` and `in` touches the event latch (decision D14, log
entry 17). -/
def Obligations.OnlyOutAndInEmit : Prop :=
  ∀ (i : Instr) (s t : State), i.opcode ∉ [Opcode.out, .inp] → exec i s = .next t → t.ev = s.ev

/-- 10_state.md section 3, 40_step_fetch_resolve.md section 3: no instruction but `jmp`, `jt`, `jf`,
`call` and `ret` moves the pc from the next instruction. -/
def Obligations.OnlyControlFlowMovesPc : Prop :=
  ∀ (i : Instr) (s t : State), i.opcode ∉ [Opcode.jmp, .jt, .jf, .call, .ret] → exec i s = .next t → t.pc = s.pc

/-- 10_state.md sections 5 to 7: what a program can see after a STEP does not depend on stale stack slots, on the
event latch or on the fault record. -/
def Obligations.HiddenStateNotSeen : Prop :=
  ∀ s s' t t' : State, s.SameToProgram s' → step s = .next t → step s' = .next t' → t.SameToProgram t'

/-! ## The invariant -/

/-- The state after RESET meets the invariant. -/
def Obligations.ResetMeetsInvariant : Prop := State.reset.Inv

/-- Every STEP keeps the invariant: canonical stores in range (20_memory.md R60, 10_state.md R39; log entries 1 and
2), `sp` at most 4096 (R40), a fault record exactly when Faulted (R43). -/
def Obligations.StepKeepsInvariant : Prop := ∀ s t : State, s.Inv → step s = .next t → t.Inv

/-- Every host transaction keeps the invariant, refused ones included (60_exceptions.md section 6; decisions
D17 and D18, log entries 6 and 13). -/
def Obligations.TransactionsKeepInvariant : Prop :=
  ∀ (σ : Session) (tr : Transaction), σ.core.Inv → (σ.transact tr).2.core.Inv

/-! ## Host transactions (spec/60_exceptions.md section 6, 70_reset_and_hazards.md) -/

/-- 20_memory.md R67: LOAD of 2n bytes sets each word k below n to `byte[2k] + 256 * byte[2k+1]`, leaves every other
word 0, and touches nothing else. -/
def Obligations.LoadPlacesImage : Prop :=
  ∀ (image : List Byte) (n : Nat), image.length = 2 * n → n ≤ 32768 →
    ∃ t, State.reset.loadImage image = some t ∧
      (∀ k, k < n → (t.wordAt k).toNat =
        (image.getD (2 * k) 0).toNat + 256 * (image.getD (2 * k + 1) 0).toNat) ∧
      (∀ k, n ≤ k → t.wordAt k = 0) ∧
      t = { State.reset with mem := t.mem }

/-- Decision D18 (log entry 6): LOAD is accepted directly after RESET alone, and only for an even byte count of
at most 65536; a refused LOAD leaves the core as it was. -/
def Obligations.LoadRefusals : Prop :=
  ∀ (σ : Session) (image : List Byte),
    ((σ.transact (.load image)).1 = .done ↔ σ.fresh = true ∧ image.length % 2 = 0 ∧ image.length ≤ 65536) ∧
    ((σ.transact (.load image)).1 ≠ .done →
      (σ.transact (.load image)).1 = .refused ∧ (σ.transact (.load image)).2.core = σ.core) ∧
    (∀ tr, (σ.transact tr).2.fresh = true ↔ tr = .reset)

/-- 70_reset_and_hazards.md section 2, decision D2 (log entry 14): whatever instruction a loaded image begins with is the one the
first STEP after RESET and LOAD runs. -/
def Obligations.LoadedInstructionIsDue : Prop :=
  ∀ (i : Instr) (ws : List Word), i.wf = true → (encode i ++ ws).length ≤ 32768 →
    ∃ t, State.reset.loadImage (bytesOfWords (encode i ++ ws)) = some t ∧ t.Due i

/-- 60_exceptions.md R236: PULL_EVENT returns the latched event and clears the latch, in any status, and changes
nothing else. -/
def Obligations.PullEventClearsLatch : Prop :=
  ∀ (σ : Session),
    (σ.transact .pullEvent).1 = .event σ.core.ev ∧
    (σ.transact .pullEvent).2.core = { σ.core with ev := none }

/-- 45_io_and_system.md section 2, decisions D7 and D16 (log entries 8 and 12): WRITE_INPUT writes the zero-extended byte to
the named register of a Running core and nothing else; a word that names no register is a full fault; a
core that is not Running is left as it is. -/
def Obligations.WriteInputRule : Prop :=
  ∀ (s : State) (w : Word) (b : Byte),
    (∀ d : Fin 8, s.status = .running → w.toNat = 0x8000 + d.val →
      (s.writeInput w b).1 = none ∧ s.RegWritten (s.writeInput w b).2 d (BitVec.ofNat 16 b.toNat)) ∧
    (s.status = .running → (w.toNat < 0x8000 ∨ 0x8007 < w.toNat) →
      (s.writeInput w b).1 = some (.illegalParameterWrite w) ∧
      s.Faults (s.writeInput w b).2 (.illegalParameterWrite w)) ∧
    (s.status ≠ .running → s.writeInput w b = (none, s))

/-- Decision D17 (log entry 13): an accessor write that is accepted reads back, leaves every other item as it was,
and touches neither status, fault record nor event latch; it is refused exactly where the index, or a written stack
count, is out of range, and an accessor read exactly where the index is. -/
def Obligations.AccessorRules : Prop :=
  ∀ (s : State) (it : Item) (v : Word),
    (∀ t, s.assign it v = some t →
      t.access it = some v ∧ (∀ o, o ≠ it → t.access o = s.access o) ∧ (it ≠ .sp → t.sp = s.sp) ∧ s.SameControl t) ∧
    (s.assign it v = none ↔ it.OutOfRange ∨ (it = .sp ∧ 4096 < v.toNat)) ∧
    (s.access it = none ↔ it.OutOfRange)

/-- 10_state.md section 6 and decision D22 (log entry 10): no transaction but RESET takes a core out of Halted or Faulted
or changes its fault record. -/
def Obligations.OnlyResetRevives : Prop :=
  ∀ (σ : Session) (tr : Transaction), σ.core.status ≠ .running → tr ≠ .reset →
    (σ.transact tr).2.core.status = σ.core.status ∧ (σ.transact tr).2.core.fault = σ.core.fault

/-- 20_memory.md section 5 (outside the block): a core restored from the state image of another holds the same pc,
registers, memory, stack count and stack slots, stale ones included, and is Running with no fault and no event (decision D24,
log entry 21). -/
def Obligations.ImageRestoresState : Prop :=
  ∀ s : State, s.sp ≤ 4096 →
    ∃ t, State.ofImage s.toImage = some t ∧ t.pc = s.pc ∧ (∀ i, t.reg i = s.reg i) ∧
      (∀ a, a < 32768 → t.wordAt a = s.wordAt a) ∧ t.sp = s.sp ∧ (∀ j, j < 4096 → t.slot j = s.slot j) ∧
      t.status = .running ∧ t.fault = none ∧ t.ev = none

/-- Decision D17 (log entry 13): an accessor read returns the item's current value and an accessor transaction that is
refused, or that reads, leaves the core as it was, whatever the status. -/
def Obligations.AccessorReads : Prop :=
  ∀ σ : Session,
    σ.core.access .pc = some σ.core.pc ∧
    (∀ i : Fin 8, σ.core.access (.reg i.val) = some (σ.core.reg i)) ∧
    (∀ a, a < 32768 → σ.core.access (.mem a) = some (σ.core.wordAt a)) ∧
    (σ.core.sp ≤ 4096 → ∃ n : Word, σ.core.access .sp = some n ∧ n.toNat = σ.core.sp) ∧
    (∀ j, j < 4096 → σ.core.access (.slot j) = some (σ.core.slot j)) ∧
    (∀ it, (σ.transact (.access it)).2.core = σ.core ∧
      ∀ v, (σ.transact (.access it)).1 = .value v ↔ σ.core.access it = some v) ∧
    (∀ it v, (σ.transact (.assign it v)).1 = .refused →
      σ.core.assign it v = none ∧ (σ.transact (.assign it v)).2.core = σ.core)
end

