-- ==== Sys2Proof/Laws/Decode.lean ====
section
/-! SUPPORT. The laws of operand classification and of the opcode map. -/

namespace Sys2Proof

/-- A word of the register range is its base plus its register number. -/
theorem regIdx_val {w : Word} (h : IsReg w) : 0x8000 + (regIdx w).val = w.toNat := by
  simp only [IsReg, Config.regBase_eq, Config.regLast_eq] at h
  simp only [regIdx]
  omega

theorem Operand.ofWord_lit {w : Word} (h : w.toNat ≤ 0x7FFF) : Operand.ofWord w = .lit (w.setWidth 15) := by
  simp [Operand.ofWord, h]

theorem Operand.ofWord_reg {w : Word} (h : IsReg w) : Operand.ofWord w = .reg (regIdx w) := by
  have h' := h
  simp only [IsReg, Config.regBase_eq, Config.regLast_eq] at h'
  rw [Operand.ofWord, if_neg (by simp; omega), if_pos h]

theorem Operand.ofWord_invalid {w : Word} (h : 0x8008 ≤ w.toNat) : Operand.ofWord w = .invalid w := by
  have h1 : ¬ IsLit w := show ¬ w.toNat ≤ 0x7FFF by omega
  have h2 : ¬ IsReg w := show ¬ (0x8000 ≤ w.toNat ∧ w.toNat ≤ 0x8007) by omega
  rw [Operand.ofWord, if_neg h1, if_neg h2]

/-- Classifying a word and taking its word back gives the word. -/
@[simp] theorem Operand.word_ofWord (w : Word) : (Operand.ofWord w).word = w := by
  by_cases h1 : w.toNat ≤ 0x7FFF
  · rw [Operand.ofWord_lit h1]
    apply BitVec.eq_of_toNat_eq
    simp only [Operand.word, BitVec.toNat_setWidth]
    omega
  · by_cases h2 : 0x8008 ≤ w.toNat
    · rw [Operand.ofWord_invalid h2]
      rfl
    · have hr : IsReg w := show 0x8000 ≤ w.toNat ∧ w.toNat ≤ 0x8007 by omega
      rw [Operand.ofWord_reg hr]
      apply BitVec.eq_of_toNat_eq
      have := regIdx_val hr
      simp only [Operand.word, Config.regBase_eq, BitVec.toNat_ofNat]
      omega

/-- Classification gives a well-formed operand. -/
@[simp] theorem Operand.wf_ofWord (w : Word) : (Operand.ofWord w).wf = true := by
  unfold Operand.ofWord
  split
  · rfl
  · split
    · rfl
    · rename_i h1 h2
      simp only [IsLit, IsReg, Config.litMax_eq, Config.regBase_eq, Config.regLast_eq] at h1 h2
      exact decide_eq_true (by omega)

/-- The class of a well-formed operand's word is the operand. -/
theorem Operand.ofWord_word {a : Operand} (h : a.wf = true) : Operand.ofWord a.word = a := by
  cases a with
  | lit n =>
    have hn : n.toNat < 32768 := n.isLt
    have hw : (n.setWidth 16 : Word).toNat = n.toNat := by simp; omega
    rw [Operand.word, Operand.ofWord_lit (by omega)]
    congr 1
    apply BitVec.eq_of_toNat_eq
    simp only [BitVec.toNat_setWidth]
    omega
  | reg i =>
    have hi : i.val < 8 := i.isLt
    have hw : (BitVec.ofNat 16 (0x8000 + i.val)).toNat = 0x8000 + i.val := by simp; omega
    simp only [Operand.word, Config.regBase_eq]
    rw [Operand.ofWord_reg (by simp only [IsReg, Config.regBase_eq, Config.regLast_eq]; omega)]
    congr 1
    apply Fin.ext
    simp only [regIdx]
    omega
  | invalid w => exact Operand.ofWord_invalid (of_decide_eq_true h)

/-- An opcode's word names it. -/
@[simp] theorem Opcode.ofWord_word (k : Opcode) : Opcode.ofWord k.word = some k := by
  cases k <;> rfl

/-- No word names two opcodes, and a word that names one is that opcode's word. -/
theorem Opcode.word_of_ofWord {w : Word} {k : Opcode} (h : Opcode.ofWord w = some k) : w = k.word := by
  apply BitVec.eq_of_toNat_eq
  unfold Opcode.ofWord at h
  split at h <;> simp_all <;> subst h <;> rfl

/-- A word names no opcode exactly when it is 22 or above. -/
theorem Opcode.ofWord_none {w : Word} : Opcode.ofWord w = none ↔ 22 ≤ w.toNat := by
  unfold Opcode.ofWord
  split <;> simp_all
  omega

/-- The words of an opcode's instruction past its operand count play no part. -/
theorem Opcode.instr_take (k : Opcode) (ws : List Word) : k.instr (ws.take k.operandCount) = k.instr ws := by
  cases k <;> simp [Opcode.instr, Opcode.operandCount]

/-- What the decoder can answer on a list of words: its instruction is built from the opcode word and the
operand words that follow. -/
theorem decode_ok {ws rest : List Word} {i : Instr} (h : decode ws = .ok (i, rest)) :
    ∃ (k : Opcode) (tail : List Word), ws = k.word :: tail ∧ k.operandCount ≤ tail.length ∧ i = k.instr tail ∧ rest = tail.drop k.operandCount := by
  cases ws with
  | nil => simp [decode] at h
  | cons op tail =>
    simp only [decode] at h
    split at h
    · exact absurd h (by simp)
    · rename_i k hk
      split at h
      · exact absurd h (by simp)
      · injection h with h
        injection h with h1 h2
        exact ⟨k, tail, by rw [Opcode.word_of_ofWord hk], by omega, h1.symm, h2.symm⟩

end Sys2Proof
end

