-- ==== Sys2Proof/Laws/State.lean ====
section
/-! SUPPORT. What each update of the state does to each field and to each read, so that no later proof unfolds a record
update. -/

namespace Sys2Proof.Machine

variable (s : State)

/-! ## Fields after an update -/

@[simp] theorem State.setReg_mem (i v) : (s.setReg i v).mem = s.mem := rfl
@[simp] theorem State.setReg_pc (i v) : (s.setReg i v).pc = s.pc := rfl
@[simp] theorem State.setReg_stk (i v) : (s.setReg i v).stk = s.stk := rfl
@[simp] theorem State.setReg_sp (i v) : (s.setReg i v).sp = s.sp := rfl
@[simp] theorem State.setReg_status (i v) : (s.setReg i v).status = s.status := rfl
@[simp] theorem State.setReg_fault (i v) : (s.setReg i v).fault = s.fault := rfl
@[simp] theorem State.setReg_ev (i v) : (s.setReg i v).ev = s.ev := rfl

@[simp] theorem State.setPc_mem (t) : (s.setPc t).mem = s.mem := rfl
@[simp] theorem State.setPc_x (t) : (s.setPc t).x = s.x := rfl
@[simp] theorem State.setPc_pc (t) : (s.setPc t).pc = t := rfl
@[simp] theorem State.setPc_stk (t) : (s.setPc t).stk = s.stk := rfl
@[simp] theorem State.setPc_sp (t) : (s.setPc t).sp = s.sp := rfl
@[simp] theorem State.setPc_status (t) : (s.setPc t).status = s.status := rfl
@[simp] theorem State.setPc_fault (t) : (s.setPc t).fault = s.fault := rfl
@[simp] theorem State.setPc_ev (t) : (s.setPc t).ev = s.ev := rfl

@[simp] theorem State.setWord_mem (a v) : (s.setWord a v).mem = Memory.writeWord s.mem a v := rfl
@[simp] theorem State.setWord_x (a v) : (s.setWord a v).x = s.x := rfl
@[simp] theorem State.setWord_pc (a v) : (s.setWord a v).pc = s.pc := rfl
@[simp] theorem State.setWord_stk (a v) : (s.setWord a v).stk = s.stk := rfl
@[simp] theorem State.setWord_sp (a v) : (s.setWord a v).sp = s.sp := rfl
@[simp] theorem State.setWord_status (a v) : (s.setWord a v).status = s.status := rfl
@[simp] theorem State.setWord_fault (a v) : (s.setWord a v).fault = s.fault := rfl
@[simp] theorem State.setWord_ev (a v) : (s.setWord a v).ev = s.ev := rfl

@[simp] theorem State.setSlot_mem (j v) : (s.setSlot j v).mem = s.mem := rfl
@[simp] theorem State.setSlot_x (j v) : (s.setSlot j v).x = s.x := rfl
@[simp] theorem State.setSlot_pc (j v) : (s.setSlot j v).pc = s.pc := rfl
@[simp] theorem State.setSlot_stk (j v) : (s.setSlot j v).stk = Store.write s.stk j v := rfl
@[simp] theorem State.setSlot_sp (j v) : (s.setSlot j v).sp = s.sp := rfl
@[simp] theorem State.setSlot_status (j v) : (s.setSlot j v).status = s.status := rfl
@[simp] theorem State.setSlot_fault (j v) : (s.setSlot j v).fault = s.fault := rfl
@[simp] theorem State.setSlot_ev (j v) : (s.setSlot j v).ev = s.ev := rfl

@[simp] theorem State.setSp_mem (n) : (s.setSp n).mem = s.mem := rfl
@[simp] theorem State.setSp_x (n) : (s.setSp n).x = s.x := rfl
@[simp] theorem State.setSp_pc (n) : (s.setSp n).pc = s.pc := rfl
@[simp] theorem State.setSp_stk (n) : (s.setSp n).stk = s.stk := rfl
@[simp] theorem State.setSp_sp (n) : (s.setSp n).sp = n := rfl
@[simp] theorem State.setSp_status (n) : (s.setSp n).status = s.status := rfl
@[simp] theorem State.setSp_fault (n) : (s.setSp n).fault = s.fault := rfl
@[simp] theorem State.setSp_ev (n) : (s.setSp n).ev = s.ev := rfl

@[simp] theorem State.halt_mem : s.halt.mem = s.mem := rfl
@[simp] theorem State.halt_x : s.halt.x = s.x := rfl
@[simp] theorem State.halt_pc : s.halt.pc = s.pc := rfl
@[simp] theorem State.halt_stk : s.halt.stk = s.stk := rfl
@[simp] theorem State.halt_sp : s.halt.sp = s.sp := rfl
@[simp] theorem State.halt_status : s.halt.status = .halted := rfl
@[simp] theorem State.halt_fault : s.halt.fault = s.fault := rfl
@[simp] theorem State.halt_ev : s.halt.ev = s.ev := rfl

@[simp] theorem State.emit_mem (e) : (s.emit e).mem = s.mem := rfl
@[simp] theorem State.emit_x (e) : (s.emit e).x = s.x := rfl
@[simp] theorem State.emit_pc (e) : (s.emit e).pc = s.pc := rfl
@[simp] theorem State.emit_stk (e) : (s.emit e).stk = s.stk := rfl
@[simp] theorem State.emit_sp (e) : (s.emit e).sp = s.sp := rfl
@[simp] theorem State.emit_status (e) : (s.emit e).status = s.status := rfl
@[simp] theorem State.emit_fault (e) : (s.emit e).fault = s.fault := rfl
@[simp] theorem State.emit_ev (e) : (s.emit e).ev = some e := rfl

@[simp] theorem State.raise_mem (f) : (s.raise f).mem = s.mem := rfl
@[simp] theorem State.raise_x (f) : (s.raise f).x = s.x := rfl
@[simp] theorem State.raise_pc (f) : (s.raise f).pc = s.pc := rfl
@[simp] theorem State.raise_stk (f) : (s.raise f).stk = s.stk := rfl
@[simp] theorem State.raise_sp (f) : (s.raise f).sp = s.sp := rfl
@[simp] theorem State.raise_status (f) : (s.raise f).status = .faulted := rfl
@[simp] theorem State.raise_fault (f) : (s.raise f).fault = some f := rfl
@[simp] theorem State.raise_ev (f) : (s.raise f).ev = s.ev := rfl

/-! ## Reads after an update that leaves their field alone -/

@[simp] theorem State.setReg_wordAt (i v a) : (s.setReg i v).wordAt a = s.wordAt a := rfl
@[simp] theorem State.setReg_slot (i v j) : (s.setReg i v).slot j = s.slot j := rfl
@[simp] theorem State.setPc_reg (t i) : (s.setPc t).reg i = s.reg i := rfl
@[simp] theorem State.setPc_wordAt (t a) : (s.setPc t).wordAt a = s.wordAt a := rfl
@[simp] theorem State.setPc_slot (t j) : (s.setPc t).slot j = s.slot j := rfl
@[simp] theorem State.setPc_setPc (t u) : (s.setPc t).setPc u = s.setPc u := rfl
@[simp] theorem State.setWord_reg (a v i) : (s.setWord a v).reg i = s.reg i := rfl
@[simp] theorem State.setWord_slot (a v j) : (s.setWord a v).slot j = s.slot j := rfl
@[simp] theorem State.setSlot_reg (j v i) : (s.setSlot j v).reg i = s.reg i := rfl
@[simp] theorem State.setSlot_wordAt (j v a) : (s.setSlot j v).wordAt a = s.wordAt a := rfl
@[simp] theorem State.setSp_reg (n i) : (s.setSp n).reg i = s.reg i := rfl
@[simp] theorem State.setSp_wordAt (n a) : (s.setSp n).wordAt a = s.wordAt a := rfl
@[simp] theorem State.setSp_slot (n j) : (s.setSp n).slot j = s.slot j := rfl
@[simp] theorem State.halt_reg (i) : s.halt.reg i = s.reg i := rfl
@[simp] theorem State.halt_slot (j) : s.halt.slot j = s.slot j := rfl
@[simp] theorem State.emit_reg (e i) : (s.emit e).reg i = s.reg i := rfl
@[simp] theorem State.emit_slot (e j) : (s.emit e).slot j = s.slot j := rfl
@[simp] theorem State.raise_reg (f i) : (s.raise f).reg i = s.reg i := rfl
@[simp] theorem State.raise_wordAt (f a) : (s.raise f).wordAt a = s.wordAt a := rfl
@[simp] theorem State.raise_slot (f j) : (s.raise f).slot j = s.slot j := rfl

/-! ## The register file -/

/-- A written register holds the value written. -/
@[simp] theorem State.setReg_reg_same (i : Fin 8) (v : Word) : (s.setReg i v).reg i = v := by
  simp [State.reg, State.setReg]

/-- A write to one register leaves every other alone. -/
theorem State.setReg_reg_ne {i e : Fin 8} (v : Word) (h : e ≠ i) : (s.setReg i v).reg e = s.reg e := by
  have h' : i.val ≠ e.val := fun heq => h (Fin.ext heq.symm)
  simp [State.reg, State.setReg, h']

end Sys2Proof.Machine
end

