-- ==== Sys2Proof/Laws/Store.lean ====
section
/-! SUPPORT. The laws of the sparse stores, the memory and its image: read after write, frames, and that every operation
keeps the canonical form. -/

namespace Sys2Proof.Machine

variable {w : Nat}

/-! ## Reads -/

@[simp] theorem Store.read_nil (a : Nat) : Store.read ([] : Store w) a = 0#w := rfl

theorem Store.read_cons (k : Nat) (v : BitVec w) (m : Store w) (a : Nat) :
    Store.read ((k, v) :: m) a = if k = a then v else Store.read m a := rfl

theorem Store.unlist_cons (k : Nat) (v : BitVec w) (m : Store w) (a : Nat) :
    Store.unlist ((k, v) :: m) a = if k = a then Store.unlist m a else (k, v) :: Store.unlist m a := by
  by_cases h : k = a <;> simp [Store.unlist, h]

theorem Store.read_unlist_same (m : Store w) (a : Nat) : Store.read (Store.unlist m a) a = 0#w := by
  induction m with
  | nil => rfl
  | cons c m ih =>
    obtain ⟨k, v⟩ := c
    by_cases h : k = a <;> simp [Store.unlist_cons, Store.read_cons, h, ih]

theorem Store.read_unlist_ne (m : Store w) {a b : Nat} (h : b ≠ a) :
    Store.read (Store.unlist m a) b = Store.read m b := by
  induction m with
  | nil => rfl
  | cons c m ih =>
    obtain ⟨k, v⟩ := c
    by_cases hk : k = a
    · simp [Store.unlist_cons, Store.read_cons, hk, ih, h.symm]
    · simp [Store.unlist_cons, Store.read_cons, hk, ih]

theorem Store.read_enter_same (m : Store w) (a : Nat) (v : BitVec w) (hm : ∀ c ∈ m, c.1 ≠ a) : Store.read (Store.enter m a v) a = v := by
  induction m with
  | nil => simp [Store.enter, Store.read_cons]
  | cons c m ih =>
    obtain ⟨k, u⟩ := c
    have hk : k ≠ a := hm (k, u) (by simp)
    by_cases hlt : a < k
    · simp [Store.enter, hlt, Store.read_cons]
    · simpa [Store.enter, hlt, Store.read_cons, hk] using ih fun c hc => hm c (by simp [hc])

theorem Store.read_enter_ne (m : Store w) {a b : Nat} (v : BitVec w) (h : b ≠ a) :
    Store.read (Store.enter m a v) b = Store.read m b := by
  induction m with
  | nil => simp [Store.enter, Store.read_cons, h.symm]
  | cons c m ih =>
    obtain ⟨k, u⟩ := c
    by_cases hlt : a < k
    · simp [Store.enter, hlt, Store.read_cons, h.symm]
    · simp [Store.enter, hlt, Store.read_cons, ih]

theorem Store.unlist_ne (m : Store w) (a : Nat) : ∀ c ∈ Store.unlist m a, c.1 ≠ a := by
  intro c hc
  simpa [Store.unlist] using (List.mem_filter.mp hc).2

/-- A written cell reads the value written, in every store. -/
@[simp] theorem Store.read_write_same (m : Store w) (a : Nat) (v : BitVec w) :
    Store.read (Store.write m a v) a = v := by
  by_cases h : v = 0#w
  · simp [Store.write, h, Store.read_unlist_same]
  · simp [Store.write, h, Store.read_enter_same _ _ _ (Store.unlist_ne m a)]

/-- A write leaves every other cell alone, in every store. -/
theorem Store.read_write_ne (m : Store w) {a b : Nat} (v : BitVec w) (h : b ≠ a) :
    Store.read (Store.write m a v) b = Store.read m b := by
  by_cases hv : v = 0#w
  · simp [Store.write, hv, Store.read_unlist_ne m h]
  · simp [Store.write, hv, Store.read_enter_ne _ v h, Store.read_unlist_ne m h]

/-! ## The canonical form -/

theorem Store.canonicalFrom_cons {hi lo k : Nat} {v : BitVec w} {m : Store w} :
    Store.canonicalFrom hi lo ((k, v) :: m) = true ↔
      lo ≤ k ∧ k < hi ∧ v ≠ 0#w ∧ Store.canonicalFrom hi (k + 1) m = true := by
  simp [Store.canonicalFrom, and_assoc]

theorem Store.canonicalFrom_mono {hi lo lo' : Nat} {m : Store w} (h : lo' ≤ lo)
    (hm : Store.canonicalFrom hi lo m = true) : Store.canonicalFrom hi lo' m = true := by
  cases m with
  | nil => rfl
  | cons c m =>
    obtain ⟨k, v⟩ := c
    rw [Store.canonicalFrom_cons] at hm ⊢
    exact ⟨le_trans h hm.1, hm.2⟩

theorem Store.canonicalFrom_unlist {hi lo : Nat} {m : Store w} (a : Nat)
    (hm : Store.canonicalFrom hi lo m = true) : Store.canonicalFrom hi lo (Store.unlist m a) = true := by
  induction m generalizing lo with
  | nil => rfl
  | cons c m ih =>
    obtain ⟨k, v⟩ := c
    rw [Store.canonicalFrom_cons] at hm
    rw [Store.unlist_cons]
    split
    · exact ih (Store.canonicalFrom_mono (by omega) hm.2.2.2)
    · exact Store.canonicalFrom_cons.mpr ⟨hm.1, hm.2.1, hm.2.2.1, ih hm.2.2.2⟩

theorem Store.canonicalFrom_enter {hi lo : Nat} {m : Store w} {a : Nat} {v : BitVec w}
    (hm : Store.canonicalFrom hi lo m = true) (hne : ∀ c ∈ m, c.1 ≠ a) (hlo : lo ≤ a) (hhi : a < hi) (hv : v ≠ 0#w) :
    Store.canonicalFrom hi lo (Store.enter m a v) = true := by
  induction m generalizing lo with
  | nil => exact Store.canonicalFrom_cons.mpr ⟨hlo, hhi, hv, rfl⟩
  | cons c m ih =>
    obtain ⟨k, u⟩ := c
    have hk : k ≠ a := hne (k, u) (by simp)
    rw [Store.canonicalFrom_cons] at hm
    by_cases hlt : a < k
    · simp only [Store.enter, hlt, if_true]
      exact Store.canonicalFrom_cons.mpr ⟨hlo, hhi, hv, Store.canonicalFrom_cons.mpr ⟨by omega, hm.2⟩⟩
    · simp only [Store.enter, hlt, if_false]
      exact Store.canonicalFrom_cons.mpr
        ⟨hm.1, hm.2.1, hm.2.2.1, ih hm.2.2.2 (fun c hc => hne c (by simp [hc])) (by omega)⟩

/-- A write in range keeps the canonical form. -/
theorem Store.canonicalFrom_write {hi lo : Nat} {m : Store w} {a : Nat} (v : BitVec w)
    (hm : Store.canonicalFrom hi lo m = true) (hlo : lo ≤ a) (hhi : a < hi) :
    Store.canonicalFrom hi lo (Store.write m a v) = true := by
  unfold Store.write
  split
  · exact Store.canonicalFrom_unlist a hm
  · exact Store.canonicalFrom_enter (Store.canonicalFrom_unlist a hm) (Store.unlist_ne m a) hlo hhi ‹_›

/-- A canonical store reads 0 below its lower bound. -/
theorem Store.read_of_canonicalFrom {hi lo a : Nat} {m : Store w} (hm : Store.canonicalFrom hi lo m = true)
    (h : a < lo) : Store.read m a = 0#w := by
  induction m generalizing lo with
  | nil => rfl
  | cons c m ih =>
    obtain ⟨k, v⟩ := c
    rw [Store.canonicalFrom_cons] at hm
    rw [Store.read_cons, if_neg (by omega)]
    exact ih hm.2.2.2 (by omega)

/-- The canonical form is one: canonical stores that read the same everywhere are the same list. -/
theorem Store.eq_of_reads {hi lo : Nat} {m m' : Store w} (hm : Store.canonicalFrom hi lo m = true)
    (hm' : Store.canonicalFrom hi lo m' = true) (h : ∀ a, Store.read m a = Store.read m' a) : m = m' := by
  induction m generalizing lo m' with
  | nil =>
    cases m' with
    | nil => rfl
    | cons c m' =>
      obtain ⟨k, v⟩ := c
      rw [Store.canonicalFrom_cons] at hm'
      have hk := h k
      rw [Store.read_nil, Store.read_cons, if_pos rfl] at hk
      exact absurd hk.symm hm'.2.2.1
  | cons c m ih =>
    obtain ⟨k, v⟩ := c
    rw [Store.canonicalFrom_cons] at hm
    cases m' with
    | nil =>
      have hk := h k
      rw [Store.read_nil, Store.read_cons, if_pos rfl] at hk
      exact absurd hk hm.2.2.1
    | cons c' m' =>
      obtain ⟨k', v'⟩ := c'
      rw [Store.canonicalFrom_cons] at hm'
      have below : ∀ {j : Nat} {n : Store w}, Store.canonicalFrom hi (j + 1) n = true → ∀ b ≤ j, Store.read n b = 0#w :=
        fun hn b hb => Store.read_of_canonicalFrom hn (by omega)
      have hkk : k = k' := by
        rcases Nat.lt_trichotomy k k' with hlt | heq | hlt
        · have hk := h k
          rw [Store.read_cons, if_pos rfl, Store.read_cons, if_neg (by omega), below hm'.2.2.2 k (by omega)] at hk
          exact absurd hk hm.2.2.1
        · exact heq
        · have hk := h k'
          rw [Store.read_cons, if_neg (by omega), Store.read_cons, if_pos rfl, below hm.2.2.2 k' (by omega)] at hk
          exact absurd hk.symm hm'.2.2.1
      subst hkk
      have hv := h k
      rw [Store.read_cons, if_pos rfl, Store.read_cons, if_pos rfl] at hv
      subst hv
      refine congrArg _ (ih hm.2.2.2 hm'.2.2.2 fun a => ?_)
      by_cases ha : k = a
      · subst ha
        rw [below hm.2.2.2 k le_rfl, below hm'.2.2.2 k le_rfl]
      · have := h a
        rwa [Store.read_cons, if_neg ha, Store.read_cons, if_neg ha] at this

/-! ## Memory words -/

theorem Memory.readByte_writeWord_low (m : Memory) (a : Nat) (v : Word) :
    Memory.readByte (Memory.writeWord m a v) (2 * a) = v.extractLsb' 0 8 := by
  simp [Memory.readByte, Memory.writeWord, Store.read_write_ne _ _ (show 2 * a ≠ 2 * a + 1 by omega)]

theorem Memory.readByte_writeWord_high (m : Memory) (a : Nat) (v : Word) :
    Memory.readByte (Memory.writeWord m a v) (2 * a + 1) = v.extractLsb' 8 8 := by
  simp [Memory.readByte, Memory.writeWord]

/-- A word store leaves every byte outside its word alone. -/
theorem Memory.readByte_writeWord_ne (m : Memory) {a k : Nat} (v : Word) (h : k / 2 ≠ a) :
    Memory.readByte (Memory.writeWord m a v) k = Memory.readByte m k := by
  simp [Memory.readByte, Memory.writeWord, Store.read_write_ne _ _ (show k ≠ 2 * a + 1 by omega),
    Store.read_write_ne _ _ (show k ≠ 2 * a by omega)]

/-- The two halves of a word make the word. -/
theorem word_of_halves (v : Word) : (v.extractLsb' 8 8 ++ v.extractLsb' 0 8 : BitVec (8 + 8)) = v := by
  ext i hi
  simp only [BitVec.getElem_append, BitVec.getElem_extractLsb']
  split
  · rw [BitVec.getLsbD_eq_getElem (by omega)]; simp
  · rw [BitVec.getLsbD_eq_getElem (by omega)]; congr 1; omega

/-- A stored word reads back. -/
@[simp] theorem Memory.readWord_writeWord_same (m : Memory) (a : Nat) (v : Word) :
    Memory.readWord (Memory.writeWord m a v) a = v := by
  rw [Memory.readWord, Memory.readByte_writeWord_low, Memory.readByte_writeWord_high, word_of_halves]

/-- A word store leaves every other word alone. -/
theorem Memory.readWord_writeWord_ne (m : Memory) {a b : Nat} (v : Word) (h : b ≠ a) :
    Memory.readWord (Memory.writeWord m a v) b = Memory.readWord m b := by
  rw [Memory.readWord, Memory.readByte_writeWord_ne m v (by omega), Memory.readByte_writeWord_ne m v (by omega)]
  rfl

/-- The value of a memory word, `byte[2a] + 256 * byte[2a+1]` (spec/20_memory.md R66). -/
theorem Memory.readWord_toNat (m : Memory) (a : Nat) :
    (Memory.readWord m a).toNat = (Memory.readByte m (2 * a)).toNat + 256 * (Memory.readByte m (2 * a + 1)).toNat := by
  rw [Memory.readWord, BitVec.toNat_append, ← Nat.shiftLeft_add_eq_or_of_lt (BitVec.isLt _), Nat.shiftLeft_eq]
  omega

/-- A word store in range keeps the canonical form of the memory. -/
theorem Memory.wf_writeWord {m : Memory} {a : Nat} (v : Word) (hm : Memory.wf m = true) (ha : a < 32768) :
    Memory.wf (Memory.writeWord m a v) = true :=
  Store.canonicalFrom_write _ (Store.canonicalFrom_write _ hm (Nat.zero_le _) (by simp; omega)) (Nat.zero_le _)
    (by simp; omega)

/-- A slot write in range keeps the canonical form of the stack buffer. -/
theorem Stack.wf_write {m : Stack} {j : Nat} (v : Word) (hm : Stack.wf m = true) (hj : j < 4096) :
    Stack.wf (Store.write m j v) = true :=
  Store.canonicalFrom_write _ hm (Nat.zero_le _) (by simpa using hj)

/-- Memories in canonical form that read the same byte everywhere are equal data. -/
theorem Memory.eq_of_reads {m m' : Memory} (hm : Memory.wf m = true) (hm' : Memory.wf m' = true)
    (h : ∀ k, Memory.readByte m k = Memory.readByte m' k) : m = m' :=
  Store.eq_of_reads hm hm' h

/-! ## The image -/

/-- A memory made from an image at cell `k` reads 0 below it. -/
theorem Memory.readByte_ofImage_lt (bs : List Byte) {k a : Nat} (h : a < k) :
    Memory.readByte (Memory.ofImage k bs) a = 0#8 := by
  induction bs generalizing k with
  | nil => rfl
  | cons b bs ih =>
    by_cases hb : b = 0#8
    · simpa [Memory.ofImage, hb] using ih (by omega)
    · have := ih (k := k + 1) (by omega)
      simpa [Memory.ofImage, hb, Memory.readByte, Store.read_cons, (show k ≠ a by omega)] using this

/-- A memory made from an image at cell `k` reads the image's bytes from `k` on, and 0 after them. -/
theorem Memory.readByte_ofImage (bs : List Byte) (k j : Nat) :
    Memory.readByte (Memory.ofImage k bs) (k + j) = bs.getD j 0#8 := by
  induction bs generalizing k j with
  | nil => rfl
  | cons b bs ih =>
    cases j with
    | zero =>
      by_cases hb : b = 0#8
      · simpa [Memory.ofImage, hb] using Memory.readByte_ofImage_lt bs (k := k + 1) (a := k) (by omega)
      · simp [Memory.ofImage, hb, Memory.readByte, Store.read_cons]
    | succ j =>
      have h := ih (k + 1) j
      rw [show k + 1 + j = k + (j + 1) by omega] at h
      by_cases hb : b = 0#8
      · simpa [Memory.ofImage, hb] using h
      · simpa [Memory.ofImage, hb, Memory.readByte, Store.read_cons] using h

theorem Memory.canonicalFrom_ofImage (bs : List Byte) {k hi : Nat} (h : k + bs.length ≤ hi) :
    Store.canonicalFrom (w := 8) hi k (Memory.ofImage k bs) = true := by
  induction bs generalizing k with
  | nil => rfl
  | cons b bs ih =>
    simp only [List.length_cons] at h
    have := ih (k := k + 1) (by omega)
    by_cases hb : b = 0#8
    · simpa [Memory.ofImage, hb] using Store.canonicalFrom_mono (Nat.le_succ k) this
    · simpa [Memory.ofImage, hb] using Store.canonicalFrom_cons.mpr ⟨le_rfl, by omega, hb, this⟩

/-- An image of at most 32768 words makes a memory in canonical form. -/
theorem Memory.wf_ofImage (bs : List Byte) (h : bs.length ≤ 65536) : Memory.wf (Memory.ofImage 0 bs) = true :=
  Memory.canonicalFrom_ofImage bs (by simpa using h)

end Sys2Proof.Machine
end

