-- ==== Sys2Proof/Laws/Ops.lean ====
section
/-! SUPPORT. What each shared operation can do, said once: checks, operand resolution, the stack primitives, memory access
with its range check, and the word operations. -/

namespace Sys2Proof.Machine

variable {α : Type} (s : State)

/-! ## Checks -/

@[simp] theorem checked_ok (v : α) (k : α → Host.Outcome State Fault Refusal) : checked (.ok v) s k = k v := rfl

@[simp] theorem checked_error (f : Fault) (k : α → Host.Outcome State Fault Refusal) :
    checked (.error f) s k = .next (s.raise f) := rfl

/-- A check ends in a next state in one of two ways: it passes and the rest does, or its fault is raised. -/
theorem checked_next {r : Except Fault α} {s t : State} {k : α → Host.Outcome State Fault Refusal}
    (h : checked r s k = .next t) : (∃ v, r = .ok v ∧ k v = .next t) ∨ (∃ f, r = .error f ∧ t = s.raise f) := by
  cases r with
  | ok v => exact .inl ⟨v, rfl, h⟩
  | error f =>
    injection h with h
    exact .inr ⟨f, rfl, h.symm⟩

/-- A check answers a next state if its rest always does. -/
theorem checked_answers {r : Except Fault α} {s : State} {k : α → Host.Outcome State Fault Refusal}
    (h : ∀ v, ∃ t, k v = .next t) : ∃ t, checked r s k = .next t := by
  cases r with
  | ok v => exact h v
  | error f => exact ⟨_, rfl⟩

/-! ## Operands -/

@[simp] theorem dst_reg (i : Fin 8) : dst (.reg i) = .ok i := rfl

/-- A destination passes exactly when it is a register reference. -/
theorem dst_ok {a : Operand} {i : Fin 8} : dst a = .ok i ↔ a = .reg i := by
  cases a <;> simp [dst]

/-- A destination that is no register reference is rejected with its word. -/
theorem dst_error {a : Operand} (h : ∀ i, a ≠ .reg i) : dst a = .error (.illegalParameterWrite a.word) := by
  cases a with
  | reg i => exact absurd rfl (h i)
  | lit n => rfl
  | invalid w => rfl

@[simp] theorem State.val_lit (n : BitVec 15) : s.val (.lit n) = .ok (n.setWidth 16) := rfl
@[simp] theorem State.val_reg (i : Fin 8) : s.val (.reg i) = .ok (s.reg i) := rfl
@[simp] theorem State.val_invalid (w : Word) : s.val (.invalid w) = .error (.illegalParameterRead w) := rfl

/-- A value operand fails only on an invalid word, with that word. -/
theorem State.val_error {s : State} {a : Operand} {f : Fault} (h : s.val a = .error f) :
    ∃ w, a = .invalid w ∧ f = .illegalParameterRead w := by
  cases a with
  | lit n => simp at h
  | reg i => simp at h
  | invalid w => exact ⟨w, rfl, by simpa using h.symm⟩

/-- Resolution depends on the registers alone. -/
theorem State.val_congr {s t : State} (h : t.x = s.x) (a : Operand) : t.val a = s.val a := by
  cases a <;> simp [State.val, State.reg, h]

/-! ## Stack primitives -/

theorem State.push_full {s : State} (v : Word) (h : 4096 ≤ s.sp) : s.push v = .error .stackOverflow := by
  simp [State.push, h]

theorem State.push_ok {s : State} (v : Word) (h : s.sp < 4096) :
    s.push v = .ok ((s.setSlot s.sp v).setSp (s.sp + 1)) := by
  simp [State.push, Nat.not_le.mpr h]

/-- A push that passes: there was room, and its one slot and the count are written. -/
theorem State.push_inv {s t : State} {v : Word} (h : s.push v = .ok t) :
    s.sp < 4096 ∧ t = (s.setSlot s.sp v).setSp (s.sp + 1) := by
  by_cases hs : s.sp < 4096
  · rw [State.push_ok v hs] at h
    exact ⟨hs, by injection h with h; exact h.symm⟩
  · rw [State.push_full v (Nat.not_lt.mp hs)] at h
    exact absurd h (by simp)

theorem State.pop_empty {s : State} (h : s.sp = 0) : s.pop = .error .stackUnderflow := by
  simp [State.pop, h]

theorem State.pop_ok {s : State} (h : 0 < s.sp) : s.pop = .ok (s.slot (s.sp - 1), s.setSp (s.sp - 1)) := by
  simp [State.pop, Nat.pos_iff_ne_zero.mp h]

/-- A pop that passes: there was an entry, and only the count is written. -/
theorem State.pop_inv {s : State} {p : Word × State} (h : s.pop = .ok p) :
    0 < s.sp ∧ p = (s.slot (s.sp - 1), s.setSp (s.sp - 1)) := by
  by_cases hs : 0 < s.sp
  · rw [State.pop_ok hs] at h
    exact ⟨hs, by injection h with h; exact h.symm⟩
  · rw [State.pop_empty (by omega)] at h
    exact absurd h (by simp)

/-- A written slot reads back. -/
@[simp] theorem State.setSlot_slot_same (j : Nat) (v : Word) : (s.setSlot j v).slot j = v := by
  simp [State.slot]

/-- A slot write leaves every other slot alone. -/
theorem State.setSlot_slot_ne {j k : Nat} (v : Word) (h : k ≠ j) : (s.setSlot j v).slot k = s.slot k := by
  simp [State.slot, Store.read_write_ne _ _ h]

/-! ## Memory access -/

/-- A stored word reads back. -/
@[simp] theorem State.setWord_wordAt_same (a : Nat) (v : Word) : (s.setWord a v).wordAt a = v := by
  simp [State.wordAt]

/-- A store leaves every other word alone. -/
theorem State.setWord_wordAt_ne {a b : Nat} (v : Word) (h : b ≠ a) : (s.setWord a v).wordAt b = s.wordAt b := by
  simp [State.wordAt, Memory.readWord_writeWord_ne _ _ h]

theorem State.load_ok {s : State} {addr : Word} (h : addr.toNat ≤ 32767) :
    s.load addr = .ok (s.wordAt addr.toNat) := by
  simp [State.load, Nat.not_le.mpr (Nat.lt_succ_of_le h)]

theorem State.load_range {s : State} {addr : Word} (h : 32767 < addr.toNat) :
    s.load addr = .error (.illegalAddress addr) := by
  simp [State.load, Nat.succ_le_of_lt h]

theorem State.store_ok {s : State} {addr : Word} (v : Word) (h : addr.toNat ≤ 32767) :
    s.store addr v = .ok (s.setWord addr.toNat v) := by
  simp [State.store, Nat.not_le.mpr (Nat.lt_succ_of_le h)]

theorem State.store_range {s : State} {addr : Word} (v : Word) (h : 32767 < addr.toNat) :
    s.store addr v = .error (.illegalAddress addr) := by
  simp [State.store, Nat.succ_le_of_lt h]

/-- A store that passes: the address was in range, and its one word is written. -/
theorem State.store_inv {s t : State} {addr v : Word} (h : s.store addr v = .ok t) :
    addr.toNat ≤ 32767 ∧ t = s.setWord addr.toNat v := by
  by_cases ha : addr.toNat ≤ 32767
  · rw [State.store_ok v ha] at h
    exact ⟨ha, by injection h with h; exact h.symm⟩
  · rw [State.store_range v (Nat.not_le.mp ha)] at h
    exact absurd h (by simp)

/-! ## Word operations -/

theorem modWords_zero (b : Word) : modWords b 0 = .error .divideByZero := by simp [modWords]

theorem modWords_ok (b : Word) {c : Word} (h : c ≠ 0) : modWords b c = .ok (BitVec.ofNat 16 (b.toNat % c.toNat)) := by
  simp only [modWords, if_neg h]

/-- A remainder that passes. -/
theorem modWords_inv {b c r : Word} (h : modWords b c = .ok r) : c ≠ 0 ∧ r = BitVec.ofNat 16 (b.toNat % c.toNat) := by
  by_cases hc : c = 0
  · subst hc
    rw [modWords_zero] at h
    exact absurd h (by simp)
  · rw [modWords_ok b hc] at h
    exact ⟨hc, by injection h with h; exact h.symm⟩

end Sys2Proof.Machine
end

