-- ==== Sys2Proof/Laws/Fetch.lean ====
section
/-! SUPPORT. What the fetch phase reads and where it leaves the pc. -/

namespace Sys2Proof.Machine

@[simp] theorem advance_toNat (a : Word) (n : Nat) : (advance a n).toNat = (a.toNat + n) % 32768 := by
  simp only [advance, Config.memWords_eq, BitVec.toNat_ofNat]
  omega

/-- After any advance the pc is an address. -/
theorem advance_le (a : Word) (n : Nat) : (advance a n).toNat ≤ 32767 := by
  rw [advance_toNat]
  omega

theorem advance_advance (a : Word) (m n : Nat) : advance (advance a m) n = advance a (m + n) := by
  apply BitVec.eq_of_toNat_eq
  simp only [advance_toNat]
  omega

theorem advance_zero {a : Word} (h : a.toNat ≤ 32767) : advance a 0 = a := by
  apply BitVec.eq_of_toNat_eq
  rw [advance_toNat]
  omega

/-- `n` fetches from an address leave the pc `n` words on, and all else as it was. -/
theorem State.fetchMany_state (n : Nat) {s : State} (h : s.pc.toNat ≤ 32767) :
    (State.fetchMany n s).2 = s.setPc (advance s.pc n) := by
  induction n generalizing s with
  | zero => simp [State.fetchMany, advance_zero h, State.setPc]
  | succ n ih =>
    have := ih (s := s.fetch.2) (by simp only [State.fetch, State.setPc_pc]; exact advance_le _ _)
    simp only [State.fetchMany, this]
    simp [State.fetch, advance_advance, Nat.add_comm]

/-- `n` fetches read the `n` words from the pc on, modulo 32768. -/
theorem State.fetchMany_words (n : Nat) {s : State} (h : s.pc.toNat ≤ 32767) :
    (State.fetchMany n s).1 = (List.range n).map fun k => s.wordAt ((s.pc.toNat + k) % 32768) := by
  induction n generalizing s with
  | zero => rfl
  | succ n ih =>
    have := ih (s := s.fetch.2) (by simp only [State.fetch, State.setPc_pc]; exact advance_le _ _)
    simp only [State.fetchMany, this, List.range_succ_eq_map, List.map_cons, List.map_map]
    congr 1
    · simp only [State.fetch]
      congr 1
      omega
    · apply List.map_congr_left
      intro k _
      simp only [State.fetch, State.setPc_wordAt, State.setPc_pc, advance_toNat, Function.comp]
      congr 1
      omega

/-- The fetch phase of a legal opcode: the instruction of the opcode and the words after it, on the state
whose pc is the post-operand pc. -/
theorem State.fetchInstr_ok {s : State} {k : Opcode} (h : s.pc.toNat ≤ 32767)
    (hk : Opcode.ofWord (s.wordAt s.pc.toNat) = some k) :
    s.fetchInstr =
      (.ok (k.instr ((List.range k.operandCount).map fun j => s.wordAt ((s.pc.toNat + 1 + j) % 32768))),
        s.setPc (advance s.pc (1 + k.operandCount))) := by
  have hp : (s.fetch.2).pc.toNat ≤ 32767 := by simp only [State.fetch, State.setPc_pc]; exact advance_le _ _
  rw [State.fetchInstr, if_neg (by simp; omega)]
  simp only [State.fetch] at hp ⊢
  rw [hk]
  simp only [State.fetchMany_state _ hp, State.fetchMany_words _ hp, State.setPc_setPc, State.setPc_pc,
    advance_advance, State.setPc_wordAt, advance_toNat]
  congr 3
  apply List.map_congr_left
  intro j _
  congr 1
  omega

/-- The fetch phase at an illegal opcode word. -/
theorem State.fetchInstr_illegal {s : State} (h : s.pc.toNat ≤ 32767) (hk : 22 ≤ (s.wordAt s.pc.toNat).toNat) :
    s.fetchInstr = (.error (.illegalOpcode (s.wordAt s.pc.toNat)), s.setPc (advance s.pc 1)) := by
  rw [State.fetchInstr, if_neg (by simp; omega)]
  simp only [State.fetch, Opcode.ofWord_none.mpr hk]

/-- The fetch phase with the pc out of range. -/
theorem State.fetchInstr_range {s : State} (h : 32767 < s.pc.toNat) :
    s.fetchInstr = (.error (.illegalAddress s.pc), s) := by
  rw [State.fetchInstr, if_pos (by simp; omega)]

/-- What the fetch phase can leave: the state with another pc. -/
theorem State.fetchInstr_state (s : State) : ∃ p, s.fetchInstr.2 = s.setPc p := by
  by_cases h : 32767 < s.pc.toNat
  · exact ⟨s.pc, by rw [State.fetchInstr_range h]; rfl⟩
  · cases hk : Opcode.ofWord (s.wordAt s.pc.toNat) with
    | none => exact ⟨_, by rw [State.fetchInstr_illegal (by omega) (Opcode.ofWord_none.mp hk)]⟩
    | some k => exact ⟨_, by rw [State.fetchInstr_ok (by omega) hk]⟩

/-- What a STEP can do: nothing unless Running; else it raises the fetch phase's fault, or runs the fetched instruction. -/
theorem step_cases (s : State) :
    (s.status ≠ .running ∧ step s = .next s) ∨
    (s.status = .running ∧ ∃ f p, s.fetchInstr = (.error f, s.setPc p) ∧ step s = .next ((s.setPc p).raise f)) ∨
    (s.status = .running ∧ ∃ i p, s.fetchInstr = (.ok i, s.setPc p) ∧ step s = exec i (s.setPc p)) := by
  obtain ⟨p, hp⟩ := s.fetchInstr_state
  cases hs : s.status with
  | halted => exact .inl ⟨by simp, by simp [step, hs]⟩
  | faulted => exact .inl ⟨by simp, by simp [step, hs]⟩
  | running =>
    cases hr : s.fetchInstr with
    | mk r t =>
      rw [hr] at hp
      obtain rfl : t = s.setPc p := hp
      cases r with
      | error f => exact .inr (.inl ⟨rfl, f, p, rfl, by simp [step, hs, hr]⟩)
      | ok i => exact .inr (.inr ⟨rfl, i, p, rfl, by simp [step, hs, hr]⟩)

end Sys2Proof.Machine
end

