-- ==== Sys2Proof/Laws/Effects.lean ====
section
/-! SUPPORT. What executing an instruction can do, said once: every next state of `exec` is one of these effects; and
which instruction the fetch phase answers. -/

namespace Sys2Proof.Machine

/-- The effects of the instruction set: `Effect i s t` says which updates of `s` instruction `i` may end in. -/
inductive Effect (i : Instr) (s : State) : State → Prop where
  /-- A check failed and its fault was raised. -/
  | raised (f : Fault) : Effect i s (s.raise f)
  /-- A result was written to the destination register. -/
  | wrote (d : Fin 8) (v : Word) (hd : i.destination = some (.reg d)) (hp : i.opcode ≠ .pop) : Effect i s (s.setReg d v)
  /-- A jump was taken. -/
  | jumped (v : Word) (hi : i.opcode ∈ [Opcode.jmp, .jt, .jf]) : Effect i s (s.setPc v)
  /-- Nothing: an untaken jump, or `noop`. -/
  | nothing (hi : i.opcode ∈ [Opcode.jt, .jf, .noop]) : Effect i s s
  /-- A value was pushed by `push`. -/
  | pushed (v : Word) (hi : i.opcode = .push) (room : s.sp < 4096) : Effect i s ((s.setSlot s.sp v).setSp (s.sp + 1))
  /-- The return address was pushed and the target taken by `call`. -/
  | called (v : Word) (hi : i.opcode = .call) (room : s.sp < 4096) :
      Effect i s (((s.setSlot s.sp s.pc).setSp (s.sp + 1)).setPc v)
  /-- The top was popped into the destination by `pop`. -/
  | popped (d : Fin 8) (hi : i.opcode = .pop) (hd : i.destination = some (.reg d)) (some : 0 < s.sp) :
      Effect i s ((s.setSp (s.sp - 1)).setReg d (s.slot (s.sp - 1)))
  /-- The top was popped into the pc by `ret`. -/
  | returned (hi : i.opcode = .ret) (some : 0 < s.sp) : Effect i s ((s.setSp (s.sp - 1)).setPc (s.slot (s.sp - 1)))
  /-- A word was stored by `wmem`. -/
  | stored (addr v : Word) (hi : i.opcode = .wmem) (range : addr.toNat ≤ 32767) : Effect i s (s.setWord addr.toNat v)
  /-- An event was latched by `out` or `in`. -/
  | emitted (e : Event) (hi : i.opcode ∈ [Opcode.out, .inp]) : Effect i s (s.emit e)
  /-- `halt`. -/
  | halted (hi : i = .halt) : Effect i s s.halt

/-- A check either raises its fault, which is an effect, or its rest runs. -/
theorem checked_effect {α : Type} {i : Instr} {s t : State} {r : Except Fault α}
    {k : α → Host.Outcome State Fault Refusal} (hk : ∀ v, r = .ok v → k v = .next t → Effect i s t)
    (h : checked r s k = .next t) : Effect i s t := by
  obtain ⟨v, hv, h⟩ | ⟨f, -, rfl⟩ := checked_next h
  · exact hk v hv h
  · exact .raised f

/-- A destination check, then the rest. -/
theorem checked_dst_effect {i : Instr} {a : Operand} {s t : State} {k : Fin 8 → Host.Outcome State Fault Refusal}
    (hi : i.destination = some a) (hk : ∀ d, i.destination = some (.reg d) → k d = .next t → Effect i s t)
    (h : checked (dst a) s k = .next t) : Effect i s t :=
  checked_effect (fun d hd => hk d (by rw [hi, dst_ok.mp hd])) h

/-- The last step of a meaning: its next state is an effect. -/
theorem next_effect {i : Instr} {s t u : State} (hu : Effect i s u)
    (h : (Host.Outcome.next u : Host.Outcome State Fault Refusal) = .next t) : Effect i s t := by
  injection h with h
  exact h ▸ hu

theorem binary_effect {f : Word → Word → Word} {i : Instr} {a b c : Operand} {s t : State}
    (hd : i.destination = some a) (hp : i.opcode ≠ .pop) (h : binary f a b c s = .next t) : Effect i s t :=
  checked_dst_effect hd (fun d hd => checked_effect fun _ _ => checked_effect fun _ _ =>
    next_effect (.wrote d _ hd hp)) h

/-- Every next state of an instruction is one of the effects. -/
theorem exec_effect {i : Instr} {s t : State} (h : exec i s = .next t) : Effect i s t := by
  cases i with
  | halt => exact next_effect (.halted rfl) h
  | noop => exact next_effect (.nothing (by simp [Instr.opcode])) h
  | inp w => exact next_effect (.emitted _ (by simp [Instr.opcode])) h
  | add a b c => exact binary_effect (i := .add a b c) rfl (by simp [Instr.opcode]) h
  | mult a b c => exact binary_effect (i := .mult a b c) rfl (by simp [Instr.opcode]) h
  | and a b c => exact binary_effect (i := .and a b c) rfl (by simp [Instr.opcode]) h
  | or a b c => exact binary_effect (i := .or a b c) rfl (by simp [Instr.opcode]) h
  | eq a b c => exact binary_effect (i := .eq a b c) rfl (by simp [Instr.opcode]) h
  | gt a b c => exact binary_effect (i := .gt a b c) rfl (by simp [Instr.opcode]) h
  | mod a b c =>
    exact checked_dst_effect (i := .mod a b c) rfl (fun d hd => checked_effect fun _ _ => checked_effect fun _ _ =>
      checked_effect fun r _ => next_effect (.wrote d r hd (by simp [Instr.opcode]))) h
  | rmem a b =>
    exact checked_dst_effect (i := .rmem a b) rfl (fun d hd => checked_effect fun _ _ =>
      checked_effect fun v _ => next_effect (.wrote d v hd (by simp [Instr.opcode]))) h
  | not a b =>
    exact checked_dst_effect (i := .not a b) rfl (fun d hd => checked_effect fun _ _ =>
      next_effect (.wrote d _ hd (by simp [Instr.opcode]))) h
  | set a b =>
    exact checked_dst_effect (i := .set a b) rfl (fun d hd => checked_effect fun v _ =>
      next_effect (.wrote d v hd (by simp [Instr.opcode]))) h
  | push a =>
    refine checked_effect (fun v _ => checked_effect fun u hu => next_effect ?_) h
    obtain ⟨room, rfl⟩ := State.push_inv hu
    exact .pushed v rfl room
  | pop a =>
    refine checked_dst_effect (i := .pop a) rfl (fun d hd => checked_effect fun p hp => next_effect ?_) h
    obtain ⟨pos, rfl⟩ := State.pop_inv hp
    exact .popped d rfl hd pos
  | jmp a => exact checked_effect (fun v _ => next_effect (.jumped v (by simp [Instr.opcode]))) h
  | jt a b =>
    refine checked_effect (fun c _ => checked_effect fun v _ => next_effect ?_) h
    split
    · exact .jumped v (by simp [Instr.opcode])
    · exact .nothing (by simp [Instr.opcode])
  | jf a b =>
    refine checked_effect (fun c _ => checked_effect fun v _ => next_effect ?_) h
    split
    · exact .nothing (by simp [Instr.opcode])
    · exact .jumped v (by simp [Instr.opcode])
  | call a =>
    refine checked_effect (fun v _ => checked_effect fun u hu => next_effect ?_) h
    obtain ⟨room, rfl⟩ := State.push_inv hu
    exact .called v rfl room
  | ret =>
    refine checked_effect (fun p hp => next_effect ?_) h
    obtain ⟨pos, rfl⟩ := State.pop_inv hp
    exact .returned rfl pos
  | wmem a b =>
    refine checked_effect (fun addr _ => checked_effect fun v _ => checked_effect fun u hu => next_effect ?_) h
    obtain ⟨range, rfl⟩ := State.store_inv hu
    exact .stored addr v rfl range
  | out a => exact checked_effect (fun v _ => next_effect (.emitted _ (by simp [Instr.opcode]))) h

/-! ## The instruction due -/

/-- The fetch phase when an instruction is due: that instruction, with the pc past its words. -/
theorem State.Due.fetchInstr {s : State} {i : Instr} (h : s.Due i) :
    s.fetchInstr = (.ok i, s.setPc (advance s.pc i.length)) := by
  obtain ⟨hr, hp, rest, hd⟩ := h
  obtain ⟨k, tail, hw, hlen, rfl, -⟩ := decode_ok hd
  have hw' := hw
  simp only [State.window, Config.maxOperands_eq, Config.memWords_eq] at hw'
  rw [show (1+3) = 4 from rfl, show List.range 4 = [0,1,2,3] from rfl] at hw'
  simp only [List.map_cons, List.map_nil, List.cons.injEq] at hw'
  obtain ⟨h0, rfl⟩ := hw'
  have hk : Opcode.ofWord (s.wordAt s.pc.toNat) = some k := by
    rw [Nat.add_zero, Nat.mod_eq_of_lt (by omega)] at h0
    rw [h0]; simp
  rw [State.fetchInstr_ok hp hk]
  cases k <;> rfl

/-- What the fetch phase of a Running core answers is the instruction due. -/
theorem State.due_of_fetchInstr {s t : State} {i : Instr} (hs : s.status = .running) (h : s.fetchInstr = (.ok i, t)) : s.Due i := by
  by_cases hp : 32767 < s.pc.toNat
  · rw [State.fetchInstr_range hp] at h; simp at h
  · cases hk : Opcode.ofWord (s.wordAt s.pc.toNat) with
    | none => rw [State.fetchInstr_illegal (by omega) (Opcode.ofWord_none.mp hk)] at h; simp at h
    | some k =>
      rw [State.fetchInstr_ok (by omega) hk] at h
      simp only [Prod.mk.injEq, Except.ok.injEq] at h
      obtain ⟨rfl, -⟩ := h
      refine ⟨hs, by omega, ?_⟩
      have hw : s.window = s.wordAt s.pc.toNat :: [s.wordAt ((s.pc.toNat + 1) % 32768),
          s.wordAt ((s.pc.toNat + 2) % 32768), s.wordAt ((s.pc.toNat + 3) % 32768)] := by
        simp only [State.window, Config.maxOperands_eq, Config.memWords_eq]
        rw [show (1+3) = 4 from rfl, show List.range 4 = [0,1,2,3] from rfl]
        simp [Nat.mod_eq_of_lt (show s.pc.toNat < 32768 by omega)]
      rw [hw]
      simp only [decode, hk]
      cases k <;> exact ⟨_, rfl⟩

end Sys2Proof.Machine
end

