-- ==== Sys2Proof/Laws/Frames.lean ====
section
/-! SUPPORT. What each update of the state is in the frame predicates of Safety.lean. -/

namespace Sys2Proof.Machine

variable (s : State)

theorem State.sameRegs_of_x {s t : State} (h : t.x = s.x) (l : List (Fin 8)) : s.SameRegs t l :=
  fun e _ => by simp [State.reg, h]

theorem State.sameBytes_of_mem {s t : State} (h : t.mem = s.mem) (l : List Nat) : s.SameBytes t l :=
  fun k _ => by rw [h]

theorem State.sameSlots_of_stk {s t : State} (h : t.stk = s.stk) (l : List Nat) : s.SameSlots t l :=
  fun j _ => by simp [State.slot, h]

theorem State.regWritten_setReg (d : Fin 8) (v : Word) : s.RegWritten (s.setReg d v) d v where
  value := by simp
  regs e he := State.setReg_reg_ne s v (by simpa using he)
  bytes := State.sameBytes_of_mem rfl _
  slots := State.sameSlots_of_stk rfl _
  sp := rfl
  pc := rfl
  control := ⟨rfl, rfl, rfl⟩

theorem State.pcWritten_setPc (v : Word) : s.PcWritten (s.setPc v) v where
  value := rfl
  regs := State.sameRegs_of_x rfl _
  bytes := State.sameBytes_of_mem rfl _
  slots := State.sameSlots_of_stk rfl _
  sp := rfl
  control := ⟨rfl, rfl, rfl⟩

theorem State.pushed_setSlot (v p : Word) : s.Pushed (((s.setSlot s.sp v).setSp (s.sp + 1)).setPc p) v p where
  top := by simp
  sp := rfl
  pc := rfl
  regs := State.sameRegs_of_x rfl _
  bytes := State.sameBytes_of_mem rfl _
  slots j hj := by simpa using State.setSlot_slot_ne s v (show j ≠ s.sp by simpa using hj)
  control := ⟨rfl, rfl, rfl⟩

theorem State.popped_setSp : s.Popped (s.setSp (s.sp - 1)) [] where
  sp := rfl
  regs := State.sameRegs_of_x rfl _
  bytes := State.sameBytes_of_mem rfl _
  slots := State.sameSlots_of_stk rfl _
  control := ⟨rfl, rfl, rfl⟩

theorem State.wordStored_setWord (a : Nat) (v : Word) : s.WordStored (s.setWord a v) a v where
  value := by simp
  bytes k hk := Memory.readByte_writeWord_ne s.mem v (by simpa using hk)
  regs := State.sameRegs_of_x rfl _
  slots := State.sameSlots_of_stk rfl _
  sp := rfl
  pc := rfl
  control := ⟨rfl, rfl, rfl⟩

theorem State.emitted_emit (e : Event) : s.Emitted (s.emit e) e where
  value := rfl
  regs := State.sameRegs_of_x rfl _
  bytes := State.sameBytes_of_mem rfl _
  slots := State.sameSlots_of_stk rfl _
  sp := rfl
  pc := rfl
  status := rfl
  fault := rfl

theorem State.faults_raise (f : Fault) : s.Faults (s.raise f) f where
  status := rfl
  fault := rfl
  regs := State.sameRegs_of_x rfl _
  bytes := State.sameBytes_of_mem rfl _
  slots := State.sameSlots_of_stk rfl _
  sp := rfl
  pc := rfl
  ev := rfl

end Sys2Proof.Machine
end

