-- ==== Sys2Proof/Laws/HostPort.lean ====
section
/-! SUPPORT. What the host transactions can do, said once, and what an image of words reads as. -/

namespace Sys2Proof.Machine

/-! ## Transactions -/

/-- A step that answers a next state is what STEP leaves. -/
theorem State.stepped_eq {s t : State} (h : step s = .next t) : s.stepped = t := by
  simp [State.stepped, h]

/-- A LOAD that is accepted: the byte count is good, and only memory is written. -/
theorem State.loadImage_inv {s t : State} {image : List Byte} (h : s.loadImage image = some t) :
    image.length % 2 = 0 ∧ image.length ≤ 65536 ∧ t = { s with mem := Memory.ofImage 0 image } := by
  unfold State.loadImage at h
  split at h
  · rename_i hc
    injection h with h
    exact ⟨hc.1, by simpa using hc.2, h.symm⟩
  · exact absurd h (by simp)

/-- WRITE_INPUT does nothing, writes one register, or raises a fault. -/
theorem State.writeInput_cases (s : State) (w : Word) (b : Byte) :
    s.writeInput w b = (none, s) ∨ (∃ d, s.writeInput w b = (none, s.setReg d (b.setWidth 16))) ∨
    (∃ f, s.writeInput w b = (some f, s.raise f)) := by
  unfold State.writeInput
  split
  · split
    · exact .inr (.inl ⟨_, rfl⟩)
    · exact .inr (.inr ⟨_, rfl⟩)
  · exact .inl rfl
  · exact .inl rfl

/-- An accessor write that is accepted is one of the five updates, in range. -/
theorem State.assign_inv {s t : State} {it : Item} {v : Word} (h : s.assign it v = some t) :
    (t = s.setPc v) ∨ (∃ i, t = s.setReg i v) ∨ (∃ a, a < 32768 ∧ t = s.setWord a v) ∨
    (v.toNat ≤ 4096 ∧ t = s.setSp v.toNat) ∨ (∃ j, j < 4096 ∧ t = s.setSlot j v) := by
  cases it <;> simp only [State.assign, Config.memWords_eq, Config.stackCap_eq] at h
  · injection h with h
    exact .inl h.symm
  all_goals
    split at h
    · injection h with h
      first
      | exact .inr (.inl ⟨_, h.symm⟩)
      | exact .inr (.inr (.inl ⟨_, ‹_›, h.symm⟩))
      | exact .inr (.inr (.inr (.inl ⟨‹_›, h.symm⟩)))
      | exact .inr (.inr (.inr (.inr ⟨_, ‹_›, h.symm⟩)))
    · exact absurd h (by simp)

/-! ## Images of words -/

theorem bytesOfWords_length (ws : List Word) : (bytesOfWords ws).length = 2 * ws.length := by
  induction ws with
  | nil => rfl
  | cons w ws ih =>
    simp only [bytesOfWords, List.length_cons, ih]
    omega

/-- The bytes of word `k` of a list of words, low byte first. -/
theorem bytesOfWords_getD (ws : List Word) (k : Nat) :
    (bytesOfWords ws).getD (2 * k) 0#8 = (ws.getD k 0#16).extractLsb' 0 8 ∧
    (bytesOfWords ws).getD (2 * k + 1) 0#8 = (ws.getD k 0#16).extractLsb' 8 8 := by
  induction ws generalizing k with
  | nil => simp [bytesOfWords]
  | cons w ws ih =>
    cases k with
    | zero => simp [bytesOfWords]
    | succ k =>
      rw [show 2 * (k + 1) = 2 * k + 2 by omega]
      simpa [bytesOfWords] using ih k

/-- The words of the bytes of a list of words are the list. -/
theorem wordsOfBytes_bytesOfWords (ws : List Word) : wordsOfBytes (bytesOfWords ws) = ws := by
  induction ws with
  | nil => rfl
  | cons w ws ih => rw [bytesOfWords, wordsOfBytes, ih, word_of_halves]

/-- A memory made from the bytes of a list of words reads those words, and 0 after them. -/
theorem Memory.readWord_ofImage (ws : List Word) (k : Nat) :
    Memory.readWord (Memory.ofImage 0 (bytesOfWords ws)) k = ws.getD k 0#16 := by
  have h1 := Memory.readByte_ofImage (bytesOfWords ws) 0 (2 * k)
  have h2 := Memory.readByte_ofImage (bytesOfWords ws) 0 (2 * k + 1)
  rw [Nat.zero_add] at h1 h2
  rw [Memory.readWord, h1, h2, (bytesOfWords_getD ws k).1, (bytesOfWords_getD ws k).2, word_of_halves]

theorem Stack.read_ofWords_lt (ws : List Word) {j k : Nat} (h : k < j) : Store.read (Stack.ofWords j ws) k = 0#16 := by
  induction ws generalizing j with
  | nil => rfl
  | cons w ws ih =>
    have := ih (j := j + 1) (by omega)
    by_cases hw : w = 0#16
    · simpa [Stack.ofWords, hw] using this
    · simpa [Stack.ofWords, hw, Store.read_cons, show j ≠ k by omega] using this

/-- A stack buffer made from words at slot `j` reads them from there on, and 0 after them. -/
theorem Stack.read_ofWords (ws : List Word) (j k : Nat) : Store.read (Stack.ofWords j ws) (j + k) = ws.getD k 0#16 := by
  induction ws generalizing j k with
  | nil => rfl
  | cons w ws ih =>
    cases k with
    | zero =>
      by_cases hw : w = 0#16
      · simpa [Stack.ofWords, hw] using Stack.read_ofWords_lt ws (j := j + 1) (k := j) (by omega)
      · simp [Stack.ofWords, hw, Store.read_cons]
    | succ k =>
      have h := ih (j + 1) k
      rw [show j + 1 + k = j + (k + 1) by omega] at h
      by_cases hw : w = 0#16
      · simpa [Stack.ofWords, hw] using h
      · simpa [Stack.ofWords, hw, Store.read_cons] using h

end Sys2Proof.Machine
end

