-- ==== Sys2Proof/Laws/PerInstr.lean ====
section
/-! SUPPORT. The family `EncodedLength`: the encoder gives each instruction the length the opcode map gives its opcode. -/

namespace Sys2Proof

/-- The encoding of an instruction has one opcode word and its opcode's operand count of operand words (spec/30_encoding.md R90). -/
def Laws.EncodedLength.Statement (i : Instr) : Prop := (encode i).length = 1 + i.opcode.operandCount

theorem Laws.EncodedLength.halt : Laws.EncodedLength.Statement .halt := rfl
theorem Laws.EncodedLength.set (a b : Operand) : Laws.EncodedLength.Statement (.set a b) := rfl
theorem Laws.EncodedLength.push (a : Operand) : Laws.EncodedLength.Statement (.push a) := rfl
theorem Laws.EncodedLength.pop (a : Operand) : Laws.EncodedLength.Statement (.pop a) := rfl
theorem Laws.EncodedLength.eq (a b c : Operand) : Laws.EncodedLength.Statement (.eq a b c) := rfl
theorem Laws.EncodedLength.gt (a b c : Operand) : Laws.EncodedLength.Statement (.gt a b c) := rfl
theorem Laws.EncodedLength.jmp (a : Operand) : Laws.EncodedLength.Statement (.jmp a) := rfl
theorem Laws.EncodedLength.jt (a b : Operand) : Laws.EncodedLength.Statement (.jt a b) := rfl
theorem Laws.EncodedLength.jf (a b : Operand) : Laws.EncodedLength.Statement (.jf a b) := rfl
theorem Laws.EncodedLength.add (a b c : Operand) : Laws.EncodedLength.Statement (.add a b c) := rfl
theorem Laws.EncodedLength.mult (a b c : Operand) : Laws.EncodedLength.Statement (.mult a b c) := rfl
theorem Laws.EncodedLength.mod (a b c : Operand) : Laws.EncodedLength.Statement (.mod a b c) := rfl
theorem Laws.EncodedLength.and (a b c : Operand) : Laws.EncodedLength.Statement (.and a b c) := rfl
theorem Laws.EncodedLength.or (a b c : Operand) : Laws.EncodedLength.Statement (.or a b c) := rfl
theorem Laws.EncodedLength.not (a b : Operand) : Laws.EncodedLength.Statement (.not a b) := rfl
theorem Laws.EncodedLength.rmem (a b : Operand) : Laws.EncodedLength.Statement (.rmem a b) := rfl
theorem Laws.EncodedLength.wmem (a b : Operand) : Laws.EncodedLength.Statement (.wmem a b) := rfl
theorem Laws.EncodedLength.call (a : Operand) : Laws.EncodedLength.Statement (.call a) := rfl
theorem Laws.EncodedLength.ret : Laws.EncodedLength.Statement .ret := rfl
theorem Laws.EncodedLength.out (a : Operand) : Laws.EncodedLength.Statement (.out a) := rfl
theorem Laws.EncodedLength.inp (w : Word) : Laws.EncodedLength.Statement (.inp w) := rfl
theorem Laws.EncodedLength.noop : Laws.EncodedLength.Statement .noop := rfl

end Sys2Proof
end

