-- ==== Sys2Proof/Tests/Slice0.lean ====
section
/-! SUPPORT. The model's own tests: ill-formed terms, words written out from the spec's encodings, one or two single steps
per instruction with results from spec/95_test_vectors.md, and a witness for the hypotheses of every statement. -/

namespace Sys2Proof.Tests

open Sys2Proof.Machine

/-! ## Helpers -/

/-- The reset state with instruction words stored from address `a` on and the pc there. -/
def code (a : Nat) (ws : List Word) : State := (State.reset.place a ws).setPc (BitVec.ofNat 16 a)

/-- The reset state with `x[1]` and `x[2]` set. -/
def regs (b c : Word) : State := (State.reset.setReg 1 b).setReg 2 c

/-- The reset state with `sp` set and slot `j` holding `v`. -/
def stack (sp j : Nat) (v : Word) : State := (State.reset.setSlot j v).setSp sp

/-- The state an outcome answers. -/
def after (o : Host.Outcome State Fault Refusal) : State :=
  match o with
  | .next t => t
  | .fault _ => State.reset
  | .refused _ => State.reset

/-- What a three-operand instruction on r0, r1, r2 leaves in r0 (the form of vectors V2). -/
def alu (mk : Operand → Operand → Operand → Instr) (b c : Word) : Word :=
  (after (exec (mk (.reg 0) (.reg 1) (.reg 2)) (regs b c))).reg 0

/-! ## Well-formedness -/

theorem test_wf_refuses_low_invalid : (Operand.invalid 0x8007).wf = false := by decide
theorem test_wf_accepts_invalid : (Operand.invalid 0x8008).wf = true := by decide
theorem test_wf_set : (Instr.set (.invalid 5) (.lit 1)).wf = false ∧ (Instr.set (.reg 0) (.invalid 5)).wf = false := by decide
theorem test_wf_push_pop : (Instr.push (.invalid 5)).wf = false ∧ (Instr.pop (.invalid 5)).wf = false := by decide
theorem test_wf_three_operands :
    ∀ mk ∈ [Instr.eq, Instr.gt, Instr.add, Instr.mult, Instr.mod, Instr.and, Instr.or],
      (mk (.invalid 5) (.lit 1) (.lit 2)).wf = false ∧ (mk (.reg 0) (.invalid 5) (.lit 2)).wf = false ∧
      (mk (.reg 0) (.lit 1) (.invalid 5)).wf = false := by decide
theorem test_wf_two_operands :
    ∀ mk ∈ [Instr.jt, Instr.jf, Instr.not, Instr.rmem, Instr.wmem],
      (mk (.invalid 5) (.lit 1)).wf = false ∧ (mk (.reg 0) (.invalid 5)).wf = false := by decide
theorem test_wf_one_operand :
    ∀ mk ∈ [Instr.jmp, Instr.call, Instr.out], (mk (.invalid 5)).wf = false := by decide

/-! ## Decoding: words written out from spec/30_encoding.md R93, R95 and the words of 95_test_vectors.md -/

theorem test_decode_halt : decode [0x0000] = .ok (.halt, []) := rfl
theorem test_decode_set : decode [0x0001, 0x8000, 0x7FFF] = .ok (.set (.reg 0) (.lit 32767), []) := rfl
theorem test_decode_push : decode [0x0002, 0x0007] = .ok (.push (.lit 7), []) := rfl
theorem test_decode_pop : decode [0x0003, 0x8001] = .ok (.pop (.reg 1), []) := rfl
theorem test_decode_eq : decode [0x0004, 0x8000, 0x8001, 0x0007] = .ok (.eq (.reg 0) (.reg 1) (.lit 7), []) := rfl
theorem test_decode_gt : decode [0x0005, 0x8000, 0x0004, 0x8001] = .ok (.gt (.reg 0) (.lit 4) (.reg 1), []) := rfl
theorem test_decode_jmp : decode [0x0006, 0x0064] = .ok (.jmp (.lit 100), []) := rfl
theorem test_decode_jt : decode [0x0007, 0x8000, 0x0032] = .ok (.jt (.reg 0) (.lit 50), []) := rfl
theorem test_decode_jf : decode [0x0008, 0x8000, 0x0032] = .ok (.jf (.reg 0) (.lit 50), []) := rfl
theorem test_decode_add : decode [0x0009, 0x8000, 0x9000, 0xFFFF] = .ok (.add (.reg 0) (.invalid 0x9000) (.invalid 0xFFFF), []) := rfl
theorem test_decode_mult : decode [0x000A, 0x8001, 0x8001, 0x8000] = .ok (.mult (.reg 1) (.reg 1) (.reg 0), []) := rfl
theorem test_decode_mod : decode [0x000B, 0x8000, 0x8001, 0x0005] = .ok (.mod (.reg 0) (.reg 1) (.lit 5), []) := rfl
theorem test_decode_and : decode [0x000C, 0x8000, 0x8001, 0x00FF] = .ok (.and (.reg 0) (.reg 1) (.lit 255), []) := rfl
theorem test_decode_or : decode [0x000D, 0x8000, 0x8001, 0x00FF] = .ok (.or (.reg 0) (.reg 1) (.lit 255), []) := rfl
theorem test_decode_not : decode [0x000E, 0x8001, 0x8000] = .ok (.not (.reg 1) (.reg 0), []) := rfl
theorem test_decode_rmem : decode [0x000F, 0x8000, 0x0064] = .ok (.rmem (.reg 0) (.lit 100), []) := rfl
theorem test_decode_wmem : decode [0x0010, 0x8001, 0x8002] = .ok (.wmem (.reg 1) (.reg 2), []) := rfl
theorem test_decode_call : decode [0x0011, 0x0064] = .ok (.call (.lit 100), []) := rfl
theorem test_decode_ret : decode [0x0012] = .ok (.ret, []) := rfl
theorem test_decode_out : decode [0x0013, 0x0041] = .ok (.out (.lit 65), []) := rfl
theorem test_decode_in : decode [0x0014, 0x9000] = .ok (.inp 0x9000, []) := rfl
theorem test_decode_noop : decode [0x0015, 0x0000] = .ok (.noop, [0x0000]) := rfl
theorem test_decode_illegal : decode [0x0016] = .error (.illegalOpcode 22) ∧ decode [0x8000] = .error (.illegalOpcode 0x8000) := ⟨rfl, rfl⟩
theorem test_decode_truncated : decode [0x0001, 0x8000] = .error .truncated := rfl
/-- The image bytes of R100's example. -/
theorem test_decode_bytes :
    decodeBytes [0x09, 0x00, 0x00, 0x80, 0x00, 0x80, 0x05, 0x00] = .ok (.add (.reg 0) (.reg 0) (.lit 5), []) := rfl
/-- The opcode table's numbering: the second word of `jmp 100` is bits 31:16. -/
theorem test_table_word : decodeTableWord 32 0x00640006 = some (.jmp (.lit 100)) ∧ decodeTableWord 16 0x0009 = some (.add (.lit 0) (.lit 0) (.lit 0)) := by decide
/-- Vector S7: the walk marks 9999 as one word and goes on at the next. -/
theorem test_listing :
    listing 0 0 [0x0006, 0x0003, 0x270F, 0x0015] = [(0, ⟨some .jmp, 1, 2⟩), (2, ⟨none, 0, 1⟩), (3, ⟨some .noop, 0, 1⟩)] := rfl

/-! ## Single steps: vectors of 95_test_vectors.md -/

theorem test_add : alu .add 0x7FFF 5 = 4 ∧ alu .add 0xFFFF 0xFFFF = 0x7FFE ∧ alu .add 0x8000 0x8000 = 0 := by decide
theorem test_mult : alu .mult 300 200 = 0x6A60 ∧ alu .mult 0x9000 0xFFFF = 0x7000 ∧ alu .mult 0x100 0x80 = 0 := by decide
theorem test_mod : alu .mod 17 5 = 2 ∧ alu .mod 5 17 = 5 ∧ alu .mod 0x9000 0xFFFF = 0x9000 := by decide
theorem test_mod_by_zero : (after (exec (.mod (.reg 0) (.reg 1) (.reg 2)) (regs 7 0))).fault = some .divideByZero := by decide
theorem test_and : alu .and 0x7F0F 0x00FF = 0x000F ∧ alu .and 0xFFFF 0x8001 = 0x8001 := by decide
theorem test_or : alu .or 0x7F0F 0x00FF = 0x7FFF ∧ alu .or 0x9000 0xFFFF = 0xFFFF := by decide
theorem test_not :
    (after (exec (.not (.reg 0) (.reg 1)) (regs 0x8005 0))).reg 0 = 0x7FFA ∧
    (after (exec (.not (.reg 0) (.reg 1)) (regs 0x7FFF 0))).reg 0 = 0 := by decide
theorem test_not_same_register : (after (exec (.not (.reg 1) (.reg 1)) (regs 5 0))).reg 1 = 0x7FFA := by decide
theorem test_eq : alu .eq 7 7 = 1 ∧ alu .eq 0x8005 0x0005 = 0 := by decide
theorem test_gt : alu .gt 0x8000 0x7FFF = 1 ∧ alu .gt 5 17 = 0 ∧ alu .gt 7 7 = 0 := by decide
/-- V1.7, V1.8: one level of resolution, and no fault for what a register holds. -/
theorem test_set :
    (after (exec (.set (.reg 0) (.reg 1)) (regs 0x8001 7))).reg 0 = 0x8001 ∧
    (after (exec (.set (.reg 0) (.reg 1)) (regs 0x9000 7))).fault = none := by decide
/-- V1.5, S6: a literal destination faults and writes neither register 0 nor memory word 0. -/
theorem test_set_literal_destination :
    (after (exec (.set (.lit 0) (.lit 1)) State.reset)).fault = some (.illegalParameterWrite 0) ∧
    (after (exec (.set (.lit 0) (.lit 1)) State.reset)).reg 0 = 0 ∧
    (after (exec (.set (.lit 0) (.lit 1)) State.reset)).wordAt 0 = 0 := by decide
/-- V1.9: the destination is checked first. V1.10: the first invalid operand is the one reported. -/
theorem test_check_order :
    (after (exec (.add (.lit 5) (.invalid 0x8008) (.lit 2)) State.reset)).fault = some (.illegalParameterWrite 5) ∧
    (after (exec (.add (.reg 0) (.invalid 0x9000) (.invalid 0xFFFF)) State.reset)).fault = some (.illegalParameterRead 0x9000) := by
  decide
/-- V4.8: the last free slot is filled. -/
theorem test_push :
    (after (exec (.push (.lit 1)) (stack 4095 0 0))).slot 4095 = 1 ∧ (after (exec (.push (.lit 1)) (stack 4095 0 0))).sp = 4096 := by
  decide
theorem test_push_full : (after (exec (.push (.lit 1)) (stack 4096 0 0))).fault = some .stackOverflow := by decide
/-- V4.3: the popped slot stays. -/
theorem test_pop :
    (after (exec (.pop (.reg 0)) (stack 2 1 9))).reg 0 = 9 ∧ (after (exec (.pop (.reg 0)) (stack 2 1 9))).sp = 1 ∧
    (after (exec (.pop (.reg 0)) (stack 2 1 9))).slot 1 = 9 := by decide
/-- V4.6, V4.7: a bad destination is reported before the stack is looked at, and nothing is popped. -/
theorem test_pop_bad_destination :
    (after (exec (.pop (.lit 5)) State.reset)).fault = some (.illegalParameterWrite 5) ∧
    (after (exec (.pop (.lit 5)) (stack 1 0 3))).sp = 1 := by decide
theorem test_jmp : (after (exec (.jmp (.reg 1)) (regs 0x9000 0))).pc = 0x9000 := by decide
theorem test_jt :
    (after (exec (.jt (.reg 1) (.lit 50)) (regs 0x8000 0))).pc = 50 ∧ (after (exec (.jt (.reg 2) (.lit 50)) (regs 0 0))).pc = 0 := by
  decide
/-- V3.6: the target is resolved though the jump is not taken. -/
theorem test_jt_unused_target :
    (after (exec (.jt (.lit 0) (.invalid 0x8008)) State.reset)).fault = some (.illegalParameterRead 0x8008) := by decide
theorem test_jf :
    (after (exec (.jf (.reg 2) (.lit 50)) (regs 0 0))).pc = 50 ∧ (after (exec (.jf (.reg 1) (.lit 50)) (regs 2 0))).pc = 0 := by
  decide
/-- V3.10: the return address wraps. -/
theorem test_call_wraps :
    (after (step (code 32766 [0x0011, 0x0005]))).slot 0 = 0 ∧ (after (step (code 32766 [0x0011, 0x0005]))).pc = 5 := by decide
/-- V3.9. -/
theorem test_call : (after (step (code 20 [0x0011, 0x0064]))).slot 0 = 22 := by decide
theorem test_ret :
    (after (exec .ret (stack 1 0 0x8000))).pc = 0x8000 ∧ (after (exec .ret (stack 1 0 22))).slot 0 = 22 := by decide
theorem test_ret_empty : (after (exec .ret State.reset)).fault = some .stackUnderflow := by decide
/-- V5.4 and V5.5. -/
theorem test_rmem :
    (after (exec (.rmem (.reg 1) (.reg 1)) ((regs 100 0).setWord 100 0xABCD))).reg 1 = 0xABCD ∧
    (after (exec (.rmem (.reg 0) (.reg 1)) (regs 0x8000 7))).fault = some (.illegalAddress 0x8000) := by decide
/-- V5.8 and V5.9. -/
theorem test_wmem :
    (after (exec (.wmem (.reg 1) (.reg 2)) (regs 200 0xFFFF))).wordAt 200 = 0xFFFF ∧
    (after (exec (.wmem (.reg 1) (.lit 1)) (regs 0xFFFF 0))).fault = some (.illegalAddress 0xFFFF) := by decide
/-- V5.11: a store into the instruction's own words does not change its execution. -/
theorem test_wmem_own_word :
    (after (step (code 0 [0x0010, 0x0001, 0x0007]))).wordAt 1 = 7 ∧ (after (step (code 0 [0x0010, 0x0001, 0x0007]))).pc = 3 := by
  decide
/-- V6.2: the high byte is dropped. -/
theorem test_out : (after (exec (.out (.reg 1)) (regs 0x0141 0))).ev = some (.output 0x41) := by decide
/-- V6.4: no event on a fault. -/
theorem test_out_invalid : (after (exec (.out (.invalid 0x8008)) State.reset)).ev = none := by decide
/-- V6.7. -/
theorem test_in : (after (step (code 0 [0x0014, 0x9000]))).ev = some (.input 0x9000) ∧ (after (step (code 0 [0x0014, 0x9000]))).pc = 2 := by decide
/-- V6.13. -/
theorem test_noop : (after (step (code 7 [0x0015]))).pc = 8 := by decide
/-- V6.14. -/
theorem test_halt : (after (step (code 12 [0x0000]))).pc = 13 ∧ (after (step (code 12 [0x0000]))).report = .halted := by decide
/-- V6.16, V6.17: the opcode word is never resolved. -/
theorem test_illegal_opcode :
    (after (step (code 0 [0x0016]))).fault = some (.illegalOpcode 22) ∧ (after (step (code 0 [0x0016]))).pc = 1 ∧
    (after (step (code 0 [0x8000]))).fault = some (.illegalOpcode 0x8000) := by decide
/-- V7.2: an instruction across the top of memory. -/
theorem test_straddle :
    (after (step (code 32766 [0x0001, 0x8000, 0x0006]))).reg 0 = 6 ∧ (after (step (code 32766 [0x0001, 0x8000, 0x0006]))).pc = 1 := by decide
/-- V7.3: the pc keeps its value. -/
theorem test_pc_out_of_range :
    (after (step (State.reset.setPc 32768))).fault = some (.illegalAddress 32768) ∧
    (after (step (State.reset.setPc 32768))).pc = 32768 := by decide
/-- V6.18: a faulted core repeats its report. -/
theorem test_faulted_step : after (step (State.reset.raise (.illegalOpcode 22))) = State.reset.raise (.illegalOpcode 22) := by decide
/-- The placed word is the one the next step runs, also as the first step after reset. -/
theorem test_placed_word :
    (after (step (State.reset.withFetchWord 48 0x000780010001))).reg 1 = 7 ∧
    (after (step ((stack 1 0 0x9000).withFetchWord 16 0x0012))).pc = 0x9000 := by decide

/-! ## Host transactions: vectors V6, V8 and program P4 -/

theorem test_load :
    (State.reset.loadImage [0x15, 0x00, 0x13, 0x00, 0x41, 0x00]).map (fun t => (t.wordAt 0, t.wordAt 1, t.wordAt 2, t.wordAt 3)) =
      some (0x0015, 0x0013, 0x0041, 0) := by decide
theorem test_load_refused : (Session.start.transact (.load [1, 2, 3])).1 = .refused := by decide
theorem test_load_once : ((Session.start.transact (.load [])).2.transact (.load [])).1 = .refused := by decide
theorem test_write_input :
    (State.reset.writeInput 0x8001 0x68).2.reg 1 = 0x0068 ∧
    (State.reset.writeInput 5 0x68).1 = some (.illegalParameterWrite 5) ∧ State.reset.halt.writeInput 0x8001 0x68 = (none, State.reset.halt) := by
  decide
theorem test_pull_event :
    (State.reset.emit (.output 65)).pullEvent = (some (.output 65), State.reset) ∧ State.reset.pullEvent.1 = none := by decide
theorem test_assign_sp : State.reset.assign .sp 4097 = none ∧ (State.reset.assign .sp 4096).map State.sp = some 4096 := by decide

/-- P4, its first STEP with a dutiful host: the byte is written to the register the event names. -/
theorem test_dutiful_input :
    (State.runDutiful 1 [0x68] (code 0 [0x0014, 0x8000])).events = [.input 0x8000] ∧
    (State.runDutiful 1 [0x68] (code 0 [0x0014, 0x8000])).final.reg 0 = 0x68 := by decide

/-! ## Witnesses: the hypotheses of each statement of Certificates/Slice0/Obligations.lean are met, at the edges of their ranges -/

theorem witness_decodeOfEncode : (Instr.add (.reg 7) (.lit 32767) (.invalid 0x8008)).wf = true := by decide
theorem witness_encodeOfDecode : decode [0x0013, 0xFFFF, 0x0016] = .ok (.out (.invalid 0xFFFF), [0x0016]) := rfl
theorem witness_operandWords :
    (0x7FFF : Word).toNat ≤ 0x7FFF ∧ (0x8000 : Word).toNat = 0x8000 + (0 : Fin 8).val ∧
    (0x8007 : Word).toNat = 0x8000 + (7 : Fin 8).val ∧ 0x8008 ≤ (0x8008 : Word).toNat ∧
    Operand.ofWord 0x7FFF = .lit 32767 ∧ Operand.ofWord 0x8000 = .reg 0 ∧ Operand.ofWord 0x8007 = .reg 7 ∧
    Operand.ofWord 0x8008 = .invalid 0x8008 := by decide

/-- A `noop` at the top of memory, where the pc wraps. -/
theorem due_noop : (code 32767 [0x0015]).Due .noop := ⟨rfl, by decide, ⟨_, rfl⟩⟩
theorem due_halt : State.reset.Due .halt := ⟨rfl, by decide, ⟨_, rfl⟩⟩
theorem due_in : (code 32767 [0x0014, 0x9000]).Due (.inp 0x9000) := ⟨rfl, by decide, ⟨_, rfl⟩⟩

theorem witness_decoderContractTable :
    22 ≤ (22 : Word).toNat ∧ 22 ≤ (0xFFFF : Word).toNat ∧ (code 32767 [0x0016]).pc.toNat ≤ 32767 ∧ (code 32767 [0x0015]).pc.toNat ≤ 32767 ∧
    (code 32767 [0x0015]).fetchInstr.1 = .ok .noop := by decide
theorem witness_fetchAdvancesPc :
    (code 32767 [0x0015]).pc.toNat ≤ 32767 ∧
    Opcode.ofWord ((code 32767 [0x0015]).wordAt (code 32767 [0x0015]).pc.toNat) = some .noop ∧
    (stack 4095 0 0).val (.lit 5) = .ok 5 ∧ (stack 4095 0 0).sp < 4096 := ⟨by decide, by decide, rfl, by decide⟩
theorem witness_stepRunsDueInstruction : ∃ s i, State.Due s i := ⟨_, _, due_noop⟩
theorem witness_illegalOpcodeFaults :
    (code 32767 [0x0016]).status = .running ∧ (code 32767 [0x0016]).pc.toNat ≤ 32767 ∧
    22 ≤ ((code 32767 [0x0016]).wordAt (code 32767 [0x0016]).pc.toNat).toNat := by decide
theorem witness_pcOutOfRangeFaults :
    (State.reset.setPc 32768).status = .running ∧ 32767 < (State.reset.setPc 32768).pc.toNat := by decide
theorem witness_terminated :
    State.reset.halt.status ≠ .running ∧ State.reset.halt.status = .halted ∧
    (State.reset.raise .divideByZero).status ≠ .running ∧ (State.reset.raise .divideByZero).status = .faulted := by decide

/-- Operands that resolve: for `add`, `mult`, `and`, `or`, `not`, `eq`, `gt`, `set`, `jmp`, `jt`, `jf`, `out`. -/
theorem witness_resolved : (regs 0xFFFF 0).val (.reg 1) = .ok 0xFFFF ∧ (regs 0xFFFF 0).val (.lit 32767) = .ok 32767 := ⟨rfl, rfl⟩
theorem witness_modResult :
    (regs 0xFFFF 1).val (.reg 1) = .ok 0xFFFF ∧ (regs 0xFFFF 1).val (.reg 2) = .ok 1 ∧ (1 : Word) ≠ 0 := ⟨rfl, rfl, by decide⟩
theorem witness_resultsBelowBit15 :
    State.reset.val (.lit 32767) = .ok 32767 ∧ State.reset.val (.lit 0) = .ok 0 ∧ (0 : Word).toNat ≤ 32767 ∧
    (32767 : Word).toNat ≤ 32767 ∧ (32767 : Word) ≠ 0 := ⟨rfl, rfl, by decide, by decide, by decide⟩
theorem witness_pushPrimitive : (stack 4096 0 0).sp = 4096 ∧ (stack 4095 0 0).sp < 4096 := by decide
theorem witness_popPrimitive :
    State.reset.sp = 0 ∧ 0 < (stack 1 0 7).sp ∧ ∃ t, (stack 4095 0 7).sp < 4096 ∧ (stack 4095 0 7).push 9 = .ok t :=
  ⟨rfl, by decide, _, by decide, rfl⟩
/-- For `push`, `call`, and `call` then `ret`. -/
theorem witness_pushResult : (stack 4095 0 0).val (.lit 7) = .ok 7 ∧ (stack 4095 0 0).sp < 4096 := ⟨rfl, by decide⟩
/-- For `pop` and `ret`. -/
theorem witness_popResult : 0 < (stack 1 0 7).sp ∧ 0 < (stack 4096 0 7).sp := by decide
theorem witness_callThenRet :
    ∃ u : State, u.stk = (after (exec (.call (.lit 7)) State.reset)).stk ∧ u.sp = (after (exec (.call (.lit 7)) State.reset)).sp :=
  ⟨_, rfl, rfl⟩
theorem witness_rmemResult : State.reset.val (.lit 32767) = .ok 32767 ∧ (32767 : Word).toNat ≤ 32767 := ⟨rfl, by decide⟩
theorem witness_wmemResult :
    State.reset.val (.lit 32767) = .ok 32767 ∧ State.reset.val (.reg 0) = .ok 0 ∧ (32767 : Word).toNat ≤ 32767 := ⟨rfl, rfl, by decide⟩
theorem witness_inNoopHalt :
    (code 32767 [0x0014, 0x9000]).Due (.inp 0x9000) ∧ (code 32767 [0x0015]).Due .noop ∧ State.reset.Due .halt :=
  ⟨due_in, due_noop, due_halt⟩
theorem witness_destinationFaults :
    (Instr.pop (.lit 32767)).destination = some (.lit 32767) ∧ (∀ d, Operand.lit 32767 ≠ .reg d) ∧
    (Instr.add (.invalid 0x8008) (.lit 0) (.lit 0)).destination = some (.invalid 0x8008) ∧ (∀ d, Operand.invalid 0x8008 ≠ .reg d) := by
  refine ⟨rfl, by simp, rfl, by simp⟩
theorem witness_valueOperandFaults :
    (∀ a, (Instr.add (.reg 0) (.lit 1) (.invalid 0x8008)).destination = some a → ∃ d, a = .reg d) ∧
    (Instr.add (.reg 0) (.lit 1) (.invalid 0x8008)).valueOperands = [.lit 1] ++ .invalid 0x8008 :: [] ∧
    (∀ o ∈ [Operand.lit 1], ∀ u, o ≠ .invalid u) := by
  refine ⟨fun a h => ⟨0, by simpa [Instr.destination] using h.symm⟩, rfl, by simp⟩
theorem witness_executePhaseFaults :
    (State.reset.val (.lit 7) = .ok 7 ∧ State.reset.val (.lit 0) = .ok 0) ∧
    ((regs 32768 0).val (.reg 1) = .ok 32768 ∧ 32767 < (32768 : Word).toNat) ∧ (regs 32768 0).val (.lit 7) = .ok 7 ∧
    ((stack 4096 0 0).val (.lit 7) = .ok 7 ∧ (stack 4096 0 0).sp = 4096) ∧ State.reset.sp = 0 :=
  ⟨⟨rfl, rfl⟩, ⟨rfl, by decide⟩, rfl, ⟨rfl, rfl⟩, rfl⟩
theorem witness_faultedStep :
    ∃ t, (State.reset.setPc 32768).status = .running ∧ step (State.reset.setPc 32768) = .next t ∧ t.status = .faulted :=
  ⟨_, rfl, rfl, rfl⟩
theorem witness_onlyHaltHalts : ∃ t, State.reset.status = .running ∧ step State.reset = .next t ∧ t.status = .halted :=
  ⟨_, rfl, rfl, rfl⟩
theorem witness_onlyWmemWritesMemory :
    ∃ t, (∀ a b, Instr.push (.lit 7) ≠ .wmem a b) ∧ exec (.push (.lit 7)) State.reset = .next t := ⟨_, by simp, rfl⟩
theorem witness_onlyDestinationWritten :
    ∃ t, (Instr.set (.reg 0) (.lit 7)).destination ≠ some (.reg 1) ∧ exec (.set (.reg 0) (.lit 7)) State.reset = .next t :=
  ⟨_, by decide, rfl⟩
theorem witness_onlyStackInstructions :
    ∃ t, (Instr.wmem (.lit 0) (.lit 7)).opcode ∉ [Opcode.push, .pop, .call, .ret] ∧ exec (.wmem (.lit 0) (.lit 7)) State.reset = .next t :=
  ⟨_, by decide, rfl⟩
theorem witness_onlyOutAndInEmit :
    ∃ t, (Instr.set (.reg 0) (.lit 7)).opcode ∉ [Opcode.out, .inp] ∧ exec (.set (.reg 0) (.lit 7)) State.reset = .next t :=
  ⟨_, by decide, rfl⟩
theorem witness_onlyControlFlowMovesPc :
    ∃ t, (Instr.push (.lit 7)).opcode ∉ [Opcode.jmp, .jt, .jf, .call, .ret] ∧ exec (.push (.lit 7)) State.reset = .next t :=
  ⟨_, by decide, rfl⟩
/-- Two states that differ in a stale slot and in the event latch, both about to pop. -/
theorem witness_hiddenStateNotSeen :
    ∃ t t', State.SameToProgram ((stack 1 5 7).emit (.output 1)) (stack 1 5 8) ∧
      step ((stack 1 5 7).emit (.output 1)) = .next t ∧ step (stack 1 5 8) = .next t' := by
  refine ⟨_, _, ⟨rfl, rfl, rfl, rfl, rfl, fun j hj => ?_⟩, rfl, rfl⟩
  obtain rfl : j = 0 := Nat.lt_one_iff.mp hj
  rfl
theorem witness_invariant :
    ∃ t, State.Inv (stack 4096 4095 7) ∧ step (stack 4096 4095 7) = .next t :=
  ⟨_, ⟨by decide, by decide, by decide, by simp [stack, State.reset]⟩, rfl⟩
theorem witness_transactionsKeepInvariant : Session.start.core.Inv := ⟨by decide, by decide, by decide, by simp [Session.start, State.reset]⟩
theorem witness_loadPlacesImage : (List.replicate 65536 (0xFF : Byte)).length = 2 * 32768 ∧ 32768 ≤ 32768 := by
  rw [List.length_replicate]
  omega
theorem witness_loadedInstructionIsDue :
    (Instr.add (.reg 0) (.lit 1) (.lit 2)).wf = true ∧ (encode (.add (.reg 0) (.lit 1) (.lit 2)) ++ [0x0000]).length ≤ 32768 := by decide
theorem witness_loadRefusals :
    (Session.start.transact (.load [])).1 = .done ∧ (Session.start.transact (.load [1])).1 ≠ .done := by decide
theorem witness_writeInputRule :
    (State.reset.status = .running ∧ (0x8007 : Word).toNat = 0x8000 + (7 : Fin 8).val) ∧ (0x7FFF : Word).toNat < 0x8000 ∧
    0x8007 < (0x8008 : Word).toNat ∧ State.reset.halt.status ≠ .running := by decide
theorem witness_accessorRules :
    (∃ t, State.reset.assign (.mem 32767) 7 = some t) ∧ Item.mem 32766 ≠ .mem 32767 ∧ State.reset.assign (.reg 8) 7 = none ∧
    State.reset.assign (.mem 32768) 7 = none ∧ State.reset.assign (.slot 4096) 7 = none ∧ State.reset.assign .sp 4097 = none :=
  ⟨⟨_, rfl⟩, by decide, rfl, rfl, rfl, rfl⟩
theorem witness_accessorReads :
    (stack 4096 4095 7).sp ≤ 4096 ∧ (stack 4096 4095 7).access (.slot 4095) = some 7 ∧
    (Session.start.transact (.access (.mem 32767))).1 = .value 0 ∧
    (Session.start.transact (.assign .sp 4097)).1 = .refused := ⟨by decide, by decide, rfl, rfl⟩
/-- A STEP that writes r0 leaves r1 unwritten; so does a run of it, with a WRITE_INPUT to r0 after it. -/
theorem witness_unwrittenRegistersReadZero :
    (Session.mk (code 0 [0x0001, 0x8000, 0x7FFF]) false).core.reg 1 = 0 ∧
    ¬ Transaction.Writes .step (code 0 [0x0001, 0x8000, 0x7FFF]) 1 ∧
    (∀ before tr after, [Transaction.writeInput 0x8000 7] = before ++ tr :: after →
      ¬ tr.Writes (Session.start.run before).2.core 1) := by
  refine ⟨by decide, ?_, ?_⟩
  · rintro ⟨-, i, h, hd⟩
    obtain ⟨rest, h⟩ := h.decodes
    have hi : decode (code 0 [0x0001, 0x8000, 0x7FFF]).window = .ok (.set (.reg 0) (.lit 32767), [0]) := rfl
    rw [hi] at h
    injection h with h
    injection h with h _
    subst h
    exact absurd hd (by decide)
  · intro before tr after h
    cases before with
    | nil =>
      simp only [List.nil_append, List.cons.injEq] at h
      obtain ⟨rfl, -⟩ := h
      exact fun hw => absurd hw.2 (by decide)
    | cons b bs => simp at h
theorem witness_onlyResetRevives : (Session.mk State.reset.halt false).core.status ≠ .running ∧ Transaction.step ≠ .reset := by decide
theorem witness_imageRestoresState : (stack 4096 4095 7).sp ≤ 4096 := by decide

end Sys2Proof.Tests
end

section
/-! PROOFS. The program counter (spec/10_state.md R35). -/

namespace Sys2Proof.Machine

/-! ## What a fetch and a `call` leave -/

/-- A fetch moves the pc one word on, and leaves all else as it was. -/
theorem State.fetch_state (s : State) : s.fetch.2 = s.setPc (advance s.pc 1) := rfl

/-- A `call` whose target resolves, with room on the stack: the pc it runs with is pushed and the target is taken. -/
theorem exec_call_next {s : State} {a : Operand} {v : Word} (ha : s.val a = .ok v) (room : s.sp < 4096) :
    exec (.call a) s = .next (((s.setSlot s.sp s.pc).setSp (s.sp + 1)).setPc v) := by
  simp only [exec, execCall, ha, State.push_ok s.pc room, checked_ok]

/-! ## The obligation -/

/-- Settles O7: a fetch is one `advance`, the fetch phase of a legal opcode is an `advance` over all its words, and
the slot `call` writes is read through the frame of its other updates. -/
theorem fetchAdvancesPc : Obligations.FetchAdvancesPc := by
  refine ⟨State.fetch_state, fun s => ?_, fun s k hpc hk => ?_, fun s a v ha room => ?_⟩
  · rw [State.fetch_state]
    exact advance_le s.pc 1
  · rw [State.fetchInstr_ok hpc hk]
    rfl
  · exact ⟨_, exec_call_next ha room, (s.pushed_setSlot s.pc v).top⟩

end Sys2Proof.Machine
end

section
/-! PROOFS. The image a LOAD places (spec/20_memory.md R67). -/

namespace Sys2Proof.Machine

/-! ## A good LOAD is accepted, and what a memory of bytes reads as -/

/-- The converse of `State.loadImage_inv`: a good byte count is all that acceptance asks (decision D18). -/
theorem State.loadImage_ok (s : State) {image : List Byte} (even : image.length % 2 = 0) (fits : image.length ≤ 65536) :
    s.loadImage image = some { s with mem := Memory.ofImage 0 image } :=
  if_pos ⟨even, fits⟩

theorem Memory.readWord_ofImage_toNat (bs : List Byte) (k : Nat) :
    (Memory.readWord (Memory.ofImage 0 bs) k).toNat =
      (bs.getD (2 * k) 0#8).toNat + 256 * (bs.getD (2 * k + 1) 0#8).toNat := by
  have low := Memory.readByte_ofImage bs 0 (2 * k)
  have high := Memory.readByte_ofImage bs 0 (2 * k + 1)
  rw [Nat.zero_add] at low high
  rw [Memory.readWord_toNat, low, high]

/-- The words past the end of the bytes stay 0: both halves are read past the list. -/
theorem Memory.readWord_ofImage_of_length_le {bs : List Byte} {k : Nat} (h : bs.length ≤ 2 * k) :
    Memory.readWord (Memory.ofImage 0 bs) k = 0#16 := by
  apply BitVec.eq_of_toNat_eq
  rw [Memory.readWord_ofImage_toNat, List.getD_eq_default _ _ h, List.getD_eq_default _ _ (Nat.le_succ_of_le h)]
  rfl

/-! ## The obligation -/

/-- Settles O52: `n` in range makes the byte count good, so the memory is the image's, and its words are read off the
bytes; word `k` at or above `n` lies past the last byte. -/
theorem loadPlacesImage : Obligations.LoadPlacesImage := by
  intro image n hlen hn
  have accepted := State.reset.loadImage_ok (image := image) (by omega) (by omega)
  exact ⟨_, accepted, fun k _ => Memory.readWord_ofImage_toNat image k,
    fun k hk => Memory.readWord_ofImage_of_length_le (by omega), rfl⟩

end Sys2Proof.Machine
end

section
/-! PROOFS. The classes of operand words (spec/30_encoding.md R95). -/

namespace Sys2Proof

/-! ## The three ranges and what each classifies as -/

/-- The ranges of R95 cover every word, and each one fixes the class. -/
theorem Operand.ofWord_cases (w : Word) :
    (w.toNat ≤ 0x7FFF ∧ Operand.ofWord w = .lit (w.setWidth 15)) ∨
    ((0x8000 ≤ w.toNat ∧ w.toNat ≤ 0x8007) ∧ Operand.ofWord w = .reg (regIdx w)) ∨
    (0x8008 ≤ w.toNat ∧ Operand.ofWord w = .invalid w) := by
  by_cases hlit : w.toNat ≤ 0x7FFF
  · exact .inl ⟨hlit, Operand.ofWord_lit hlit⟩
  · by_cases hinv : 0x8008 ≤ w.toNat
    · exact .inr (.inr ⟨hinv, Operand.ofWord_invalid hinv⟩)
    · have hreg : 0x8000 ≤ w.toNat ∧ w.toNat ≤ 0x8007 := by omega
      exact .inr (.inl ⟨hreg, Operand.ofWord_reg hreg⟩)

theorem Operand.ofWord_eq_lit_iff {w : Word} {n : BitVec 15} :
    Operand.ofWord w = .lit n ↔ w.toNat ≤ 0x7FFF ∧ w.setWidth 15 = n := by
  obtain ⟨range, h⟩ | ⟨range, h⟩ | ⟨range, h⟩ := Operand.ofWord_cases w
  · simp [h, range]
  · simp only [h, reduceCtorEq, show ¬ w.toNat ≤ 0x7FFF by omega, false_and]
  · simp only [h, reduceCtorEq, show ¬ w.toNat ≤ 0x7FFF by omega, false_and]

theorem Operand.ofWord_eq_reg_iff {w : Word} {i : Fin 8} :
    Operand.ofWord w = .reg i ↔ (0x8000 ≤ w.toNat ∧ w.toNat ≤ 0x8007) ∧ regIdx w = i := by
  obtain ⟨range, h⟩ | ⟨range, h⟩ | ⟨range, h⟩ := Operand.ofWord_cases w
  · simp only [h, reduceCtorEq, show ¬ (0x8000 ≤ w.toNat ∧ w.toNat ≤ 0x8007) by omega, false_and]
  · simp [h, range]
  · simp only [h, reduceCtorEq, show ¬ (0x8000 ≤ w.toNat ∧ w.toNat ≤ 0x8007) by omega, false_and]

theorem Operand.ofWord_eq_invalid_iff {w : Word} : Operand.ofWord w = .invalid w ↔ 0x8008 ≤ w.toNat := by
  obtain ⟨range, h⟩ | ⟨range, h⟩ | ⟨range, h⟩ := Operand.ofWord_cases w
  · simp only [h, reduceCtorEq, show ¬ 0x8008 ≤ w.toNat by omega]
  · simp only [h, reduceCtorEq, show ¬ 0x8008 ≤ w.toNat by omega]
  · simp [h, range]

/-! ## The bits that tell the class, and the bits of the register number -/

/-- `w[15]` tells a literal. -/
theorem isLit_iff_getLsbD (w : Word) : w.toNat ≤ 0x7FFF ↔ w.getLsbD 15 = false := by
  rw [BitVec.getLsbD, Nat.testBit_eq_decide_div_mod_eq, decide_eq_false_iff_not]
  omega

/-- `w[15:3]` tells a register reference: it is the quotient by 8, and 0x8000 is 4096 eights. -/
theorem isReg_iff_extractLsb' (w : Word) :
    0x8000 ≤ w.toNat ∧ w.toNat ≤ 0x8007 ↔ w.extractLsb' 3 13 = 0b1000000000000#13 := by
  rw [← BitVec.toNat_inj, BitVec.extractLsb'_toNat, Nat.shiftRight_eq_div_pow, BitVec.toNat_ofNat]
  omega

/-- `RegIdx` reads `w[2:0]`. -/
theorem regIdx_val_eq_extractLsb' (w : Word) : (regIdx w).val = (w.extractLsb' 0 3).toNat := by
  rw [BitVec.extractLsb'_toNat, Nat.shiftRight_zero]
  rfl

/-! ## The obligation -/

/-- Settles O5: each class is read off the range that classifies as it, and a register number off `RegIdx`. -/
theorem operandWordClasses : Obligations.OperandWordClasses := by
  intro w
  refine ⟨?_, ?_, Operand.ofWord_eq_invalid_iff.symm, isLit_iff_getLsbD w, isReg_iff_extractLsb' w, fun n hn => ?_,
    fun i hi => ?_⟩
  · simp only [Operand.ofWord_eq_lit_iff, exists_and_left, exists_eq', and_true]
  · simp only [Operand.ofWord_eq_reg_iff, exists_and_left, exists_eq', and_true]
  · obtain ⟨range, rfl⟩ := Operand.ofWord_eq_lit_iff.mp hn
    rw [BitVec.toNat_setWidth]
    omega
  · obtain ⟨range, rfl⟩ := Operand.ofWord_eq_reg_iff.mp hi
    have base := regIdx_val range
    exact ⟨by omega, regIdx_val_eq_extractLsb' w⟩

end Sys2Proof
end

section
/-! PROOFS. The decoder contract, and the fetch phase that uses the same function (spec/30_encoding.md R104). -/

namespace Sys2Proof

/-! ## The contract of a legal and of an illegal opcode word -/

theorem decodeContract_of_ofWord {w : Word} {k : Opcode} (hk : Opcode.ofWord w = some k) :
    decodeContract w = ⟨some k, k.operandCount, 1 + k.operandCount⟩ := by
  simp only [decodeContract, hk]

theorem decodeContract_illegal {w : Word} (h : 22 ≤ w.toNat) : decodeContract w = ⟨none, 0, 1⟩ := by
  simp only [decodeContract, Opcode.ofWord_none.mpr h]

/-! ## An instruction built from an opcode -/

@[simp] theorem Opcode.opcode_instr (k : Opcode) (ws : List Word) : (k.instr ws).opcode = k := by
  cases k <;> rfl

@[simp] theorem Instr.length_operandWords (i : Instr) : i.operandWords.length = i.opcode.operandCount := by
  cases i <;> rfl

end Sys2Proof

namespace Sys2Proof.Machine

/-! ## The fetch phase in terms of the contract -/

/-- The fetch phase of a pc in range moves past as many words as the contract of the word at the pc says. -/
theorem State.fetchInstr_pc {s : State} (hpc : s.pc.toNat ≤ 32767) :
    s.fetchInstr.2.pc = advance s.pc (decodeContract (s.wordAt s.pc.toNat)).length := by
  cases hk : Opcode.ofWord (s.wordAt s.pc.toNat) with
  | none =>
    have illegal := Opcode.ofWord_none.mp hk
    rw [State.fetchInstr_illegal hpc illegal, decodeContract_illegal illegal, State.setPc_pc]
  | some k => rw [State.fetchInstr_ok hpc hk, decodeContract_of_ofWord hk, State.setPc_pc]

/-- An instruction the fetch phase answers is one the contract of the word at the pc describes. -/
theorem State.decodeContract_of_fetchInstr {s : State} {i : Instr} (hpc : s.pc.toNat ≤ 32767)
    (hi : s.fetchInstr.1 = .ok i) :
    decodeContract (s.wordAt s.pc.toNat) = ⟨some i.opcode, i.operandWords.length, i.length⟩ := by
  cases hk : Opcode.ofWord (s.wordAt s.pc.toNat) with
  | none =>
    rw [State.fetchInstr_illegal hpc (Opcode.ofWord_none.mp hk)] at hi
    cases hi
  | some k =>
    rw [State.fetchInstr_ok hpc hk] at hi
    obtain rfl := Except.ok.inj hi
    rw [decodeContract_of_ofWord hk, Instr.length_operandWords, Instr.length, Opcode.opcode_instr]

/-! ## The obligation -/

/-- Settles O4: each row of the table is an opcode with its own word and operand count, so the contract of an opcode's
word gives the row; the fetch phase reads the same opcode map. -/
theorem decoderContractTable : Obligations.DecoderContractTable := by
  refine ⟨fun row hrow => ?_, fun op h => decodeContract_illegal h,
    fun s hpc => ⟨State.fetchInstr_pc hpc, fun i hi => State.decodeContract_of_fetchInstr hpc hi⟩⟩
  have hword : row.1 = row.2.1.word ∧ row.2.2 = row.2.1.operandCount := by
    revert row
    decide
  obtain ⟨hword, hcount⟩ := hword
  rw [hword, hcount]
  exact decodeContract_of_ofWord (Opcode.ofWord_word row.2.1)

end Sys2Proof.Machine
end

section
/-! PROOFS. The resolution of operand words (spec/40_step_fetch_resolve.md R125). -/

namespace Sys2Proof.Machine

/-! ## What a word of each range resolves to -/

/-- A literal resolves to the word it stands for, and classification keeps that word. -/
theorem State.val_ofWord_lit (s : State) {w : Word} (h : w.toNat ≤ 0x7FFF) : s.val (Operand.ofWord w) = .ok w := by
  have word_kept := Operand.word_ofWord w
  rw [Operand.ofWord_lit h] at word_kept ⊢
  exact congrArg Except.ok word_kept

theorem State.val_ofWord_reg (s : State) {w : Word} {i : Fin 8} (h : w.toNat = 0x8000 + i.val) :
    s.val (Operand.ofWord w) = .ok (s.reg i) := by
  have range : 0x8000 ≤ w.toNat ∧ w.toNat ≤ 0x8007 := by omega
  have base := regIdx_val range
  have number : regIdx w = i := Fin.ext (by omega)
  rw [Operand.ofWord_eq_reg_iff.mpr ⟨range, number⟩, State.val_reg]

theorem State.val_ofWord_invalid (s : State) {w : Word} (h : 0x8008 ≤ w.toNat) :
    s.val (Operand.ofWord w) = .error (.illegalParameterRead w) := by
  rw [Operand.ofWord_invalid h, State.val_invalid]

/-! ## The obligation -/

/-- Settles O6: the range of the word fixes its class, and the class what it resolves to. -/
theorem valResolvesOperandWords : Obligations.ValResolvesOperandWords :=
  fun s _ => ⟨s.val_ofWord_lit, fun _ => s.val_ofWord_reg, s.val_ofWord_invalid⟩

end Sys2Proof.Machine
end

section
/-! PROOFS. The stack primitives (spec/43_stack_and_move.md R180 and R181). -/

namespace Sys2Proof.Machine

/-! ## What a push leaves, and the pop that follows it -/

/-- A push with room, slot by slot: the one at `sp` takes the value, and each other one keeps its content. -/
theorem State.push_slots {s : State} (v : Word) (room : s.sp < 4096) :
    ∃ t, s.push v = .ok t ∧ t.slot s.sp = v ∧ (∀ j, j ≠ s.sp → t.slot j = s.slot j) ∧
      t = { s with stk := t.stk, sp := s.sp + 1 } := by
  refine ⟨_, State.push_ok v room, ?_, fun j hj => ?_, rfl⟩
  · rw [State.setSp_slot, State.setSlot_slot_same]
  · rw [State.setSp_slot, State.setSlot_slot_ne s v hj]

/-- Last in, first out: the pushed slot is the top, and the pop takes back the count alone. -/
theorem State.pop_of_push {s t : State} {v : Word} (h : s.push v = .ok t) : t.pop = .ok (v, t.setSp s.sp) := by
  obtain ⟨-, rfl⟩ := State.push_inv h
  rw [State.pop_ok (by rw [State.setSp_sp]; omega), State.setSp_sp, Nat.add_sub_cancel, State.setSp_slot,
    State.setSlot_slot_same]

/-! ## The obligations -/

/-- Settles O22: a full stack overflows, and a push with room is read slot by slot. -/
theorem pushPrimitive : Obligations.PushPrimitive :=
  fun _ v => ⟨fun full => State.push_full v full.ge, State.push_slots v⟩

/-- Settles O23: the two cases of a pop are those of the count, and a pop after a push is `State.pop_of_push`. -/
theorem popPrimitive : Obligations.PopPrimitive :=
  fun _ => ⟨State.pop_empty, State.pop_ok, fun _ _ _ pushed => State.pop_of_push pushed⟩

end Sys2Proof.Machine
end

section
/-! PROOFS. A STEP of `noop` (spec/45_io_and_system.md R202). -/

namespace Sys2Proof.Machine

/-! ## The STEP of a due instruction, and the report of a Running core -/

/-- A due instruction runs with the pc already past its words. -/
theorem State.Due.step_eq_exec {s : State} {i : Instr} (due : s.Due i) :
    step s = exec i (s.setPc (advance s.pc i.length)) := by
  simp only [step, due.running, due.fetchInstr]

theorem State.report_of_running {t : State} (running : t.status = .running) : t.report = .continue := by
  simp only [State.report, running]

/-! ## `noop` -/

theorem exec_noop (s : State) : exec .noop s = .next s := rfl

/-- `noop` is one word long, so its STEP is the pc advance of one fetch. -/
theorem State.Due.step_noop {s : State} (due : s.Due .noop) : step s = .next (s.setPc (advance s.pc 1)) :=
  due.step_eq_exec.trans (exec_noop _)

/-! ## The obligation -/

/-- Settles O36: a STEP of `noop` leaves what its fetch left, whose status is still the Running that made it due. -/
theorem noopResult : Obligations.NoopResult :=
  fun s => ⟨exec_noop s, fun due => ⟨_, due.step_noop, rfl, State.report_of_running due.running⟩⟩

end Sys2Proof.Machine
end

section
/-! PROOFS. The PULL_EVENT transaction (spec/60_exceptions.md R236). -/

namespace Sys2Proof.Machine

/-! ## What a pull answers and leaves -/

/-- The primitive has one case, whatever the status: it answers the latch and empties it. -/
theorem State.pullEvent_eq (s : State) : s.pullEvent = (s.ev, { s with ev := none }) := rfl

/-- The whole transaction: the latch is the reply, and the session is no longer fresh for a LOAD. -/
theorem Session.transact_pullEvent (σ : Session) :
    σ.transact .pullEvent = (.event σ.core.ev, ⟨{ σ.core with ev := none }, false⟩) := by
  rw [Session.transact, State.pullEvent_eq]

/-! ## The obligation -/

/-- Settles O55: the reply and the core are read off what the transaction answers, for a core of any status. -/
theorem pullEventClearsLatch : Obligations.PullEventClearsLatch := by
  intro σ
  rw [Session.transact_pullEvent]
  exact ⟨rfl, rfl⟩

end Sys2Proof.Machine
end

section
/-! PROOFS. The encoder and the decoder are inverse to each other (spec/30_encoding.md R90 to R95). -/

namespace Sys2Proof

/-! ## Operand words by their number -/

/-- Reading a list by index, as `Opcode.instr` reads operand words, gives its first words where there are enough. -/
theorem map_getD_range {n : Nat} {ws : List Word} (h : n ≤ ws.length) :
    ((List.range n).map fun k => ws.getD k 0) = ws.take n := by
  apply List.ext_getElem (by simpa using h)
  intro k hk _
  have hk : k < ws.length := by simp only [List.length_map, List.length_range] at hk; omega
  simp [List.getElem?_eq_getElem hk]

/-! ## The decoder at an opcode's word, and the words of the instruction an opcode makes -/

theorem decode_word_cons (k : Opcode) {tail : List Word} (h : k.operandCount ≤ tail.length) :
    decode (k.word :: tail) = .ok (k.instr tail, tail.drop k.operandCount) := by
  simp only [decode, Opcode.ofWord_word, if_neg (Nat.not_lt.mpr h)]

/-- The opcode of a well-formed instruction makes it again from its operand words, whatever follows them. -/
theorem Instr.instr_operandWords {i : Instr} (hi : i.wf = true) (rest : List Word) :
    i.opcode.instr (i.operandWords ++ rest) = i := by
  cases i with
  | halt | ret | noop | inp w => rfl
  | push a | pop a | jmp a | call a | out a =>
    simp [Instr.opcode, Instr.operandWords, Opcode.instr, Operand.ofWord_word hi]
  | set a b | jt a b | jf a b | not a b | rmem a b | wmem a b =>
    obtain ⟨ha, hb⟩ := Bool.and_eq_true_iff.mp hi
    simp [Instr.opcode, Instr.operandWords, Opcode.instr, Operand.ofWord_word, ha, hb]
  | eq a b c | gt a b c | add a b c | mult a b c | mod a b c | and a b c | or a b c =>
    obtain ⟨hab, hc⟩ := Bool.and_eq_true_iff.mp hi
    obtain ⟨ha, hb⟩ := Bool.and_eq_true_iff.mp hab
    simp [Instr.opcode, Instr.operandWords, Opcode.instr, Operand.ofWord_word, ha, hb, hc]

/-- An instruction made from words is well formed: its operands are classes of words. -/
theorem Opcode.wf_instr (k : Opcode) (ws : List Word) : (k.instr ws).wf = true := by
  cases k <;> simp [Opcode.instr, Instr.wf]

/-- An instruction made from words has them as its operand words, as many as its opcode takes. -/
theorem Opcode.operandWords_instr (k : Opcode) {ws : List Word} (h : k.operandCount ≤ ws.length) :
    (k.instr ws).operandWords = ws.take k.operandCount := by
  rw [← map_getD_range h]
  cases k <;> simp [Opcode.instr, Instr.operandWords, Opcode.operandCount, List.range_succ]

/-! ## The obligations -/

/-- Settles O1: the opcode word names the opcode, the operand words after it are enough for it, and they make the
instruction again. -/
theorem decodeOfEncode : Obligations.DecodeOfEncode := by
  intro i rest hi
  have count : i.opcode.operandCount = i.operandWords.length := i.length_operandWords.symm
  have enough : i.opcode.operandCount ≤ (i.operandWords ++ rest).length := by simp
  rw [encode, List.cons_append, decode_word_cons i.opcode enough, Instr.instr_operandWords hi, count,
    List.drop_left]

/-- Settles O2: the accepted words are an opcode's word and at least its operand words; the instruction made of them has
those words again, and the rest is what follows them. -/
theorem encodeOfDecode : Obligations.EncodeOfDecode := by
  intro ws rest i h
  obtain ⟨k, tail, rfl, enough, rfl, rfl⟩ := decode_ok h
  refine ⟨k.wf_instr tail, ?_⟩
  rw [encode, Opcode.opcode_instr, k.operandWords_instr enough, List.cons_append, List.take_append_drop]

/-- Settles O3: each list of words is decoded by evaluation. -/
theorem specWordsDecode : Obligations.SpecWordsDecode :=
  ⟨rfl, rfl, rfl, rfl, rfl, rfl, rfl, rfl, rfl, rfl, rfl, rfl, rfl⟩

end Sys2Proof
end

section
/-! PROOFS. The arithmetic, logic and compare instructions (spec/41_arith_logic_compare.md). -/

namespace Sys2Proof.Machine

/-! ## What completes, in terms of the word operation -/

section
variable {s : State} {b c : Operand} {vb vc : Word}

/-- A three-operand instruction whose sources resolve writes its word operation's result, and nothing else. -/
theorem binary_next (f : Word → Word → Word) (d : Fin 8) (hb : s.val b = .ok vb) (hc : s.val c = .ok vc) :
    binary f (.reg d) b c s = .next (s.setReg d (f vb vc)) := by
  simp only [binary, dst_reg, hb, hc, checked_ok]

theorem exec_not_next (d : Fin 8) (hb : s.val b = .ok vb) :
    exec (.not (.reg d) b) s = .next (s.setReg d (notWord vb)) := by
  simp only [exec, execNot, dst_reg, hb, checked_ok]

/-- `mod` with sources that resolve: what is left is the check of the divisor. -/
theorem exec_mod_checked (d : Fin 8) (hb : s.val b = .ok vb) (hc : s.val c = .ok vc) :
    exec (.mod (.reg d) b c) s = checked (modWords vb vc) s fun r => .next (s.setReg d r) := by
  simp only [exec, execMod, dst_reg, hb, hc, checked_ok]

theorem exec_mod_next (d : Fin 8) (hb : s.val b = .ok vb) (hc : s.val c = .ok vc) (nonzero : vc ≠ 0) :
    exec (.mod (.reg d) b c) s = .next (s.setReg d (BitVec.ofNat 16 (vb.toNat % vc.toNat))) := by
  rw [exec_mod_checked d hb hc, modWords_ok vb nonzero, checked_ok]

end

/-! ## The word operations as arithmetic -/

theorem addWords_le (b c : Word) : (addWords b c).toNat ≤ 32767 := by
  simp only [addWords, Config.arithMod_eq, BitVec.toNat_ofNat]
  omega

theorem multWords_le (b c : Word) : (multWords b c).toNat ≤ 32767 := by
  simp only [multWords, Config.arithMod_eq, BitVec.toNat_ofNat]
  omega

theorem truthWord_le (p : Bool) : (truthWord p).toNat ≤ 32767 := by
  cases p <;> decide

/-- The mask is `2 ^ 15 - 1`, so masking the complement takes its remainder by `2 ^ 15`. -/
theorem notWord_toNat (b : Word) : (notWord b).toNat = 32767 - b.toNat % 32768 := by
  have mask : (0x7FFF : Word).toNat = 2 ^ 15 - 1 := rfl
  have bound := b.isLt
  rw [notWord, BitVec.toNat_and, mask, Nat.and_two_pow_sub_one_eq_mod, BitVec.toNat_not]
  omega

theorem notWord_eq (b : Word) : notWord b = BitVec.ofNat 16 (32767 - b.toNat % 32768) := by
  apply BitVec.eq_of_toNat_eq
  rw [notWord_toNat, BitVec.toNat_ofNat]
  omega

/-- A remainder of words is a word, so taking it as one loses nothing. -/
theorem toNat_ofNat_mod (b c : Word) : (BitVec.ofNat 16 (b.toNat % c.toNat)).toNat = b.toNat % c.toNat := by
  rw [← BitVec.toNat_umod, BitVec.ofNat_toNat, BitVec.setWidth_eq]

/-! ## Results with bit 15 clear -/

theorem answers_setReg_le {s : State} {o : Host.Outcome State Fault Refusal} {d : Fin 8} {v : Word}
    (h : o = .next (s.setReg d v)) (bound : v.toNat ≤ 32767) : Answers o fun t => (t.reg d).toNat ≤ 32767 :=
  ⟨_, h, (congrArg BitVec.toNat (s.setReg_reg_same d v)).trans_le bound⟩

theorem answers_binary_le {s : State} {b c : Operand} {vb vc : Word} (f : Word → Word → Word) (d : Fin 8)
    (hb : s.val b = .ok vb) (hc : s.val c = .ok vc) (bound : (f vb vc).toNat ≤ 32767) :
    Answers (binary f (.reg d) b c s) fun t => (t.reg d).toNat ≤ 32767 :=
  answers_setReg_le (binary_next f d hb hc) bound

/-! ## The obligations -/

/-- Settles O15: `add` is `binary` of the sum. -/
theorem addResult : Obligations.AddResult :=
  fun s d _ _ _ _ hb hc => ⟨_, binary_next addWords d hb hc, s.regWritten_setReg d _⟩

/-- Settles O16: `mult` is `binary` of the product. -/
theorem multResult : Obligations.MultResult :=
  fun s d _ _ _ _ hb hc => ⟨_, binary_next multWords d hb hc, s.regWritten_setReg d _⟩

/-- Settles O17: a divisor that is not 0 passes the check, and bounds the remainder. -/
theorem modResult : Obligations.ModResult := by
  intro s d b c vb vc hb hc nonzero
  have positive : 0 < vc.toNat := Nat.pos_of_ne_zero fun h => nonzero (BitVec.eq_of_toNat_eq h)
  refine ⟨_, exec_mod_next d hb hc nonzero, s.regWritten_setReg d _, ?_, ?_⟩
  · rw [State.setReg_reg_same, toNat_ofNat_mod]
    exact Nat.mod_lt _ positive
  · rw [State.setReg_reg_same, toNat_ofNat_mod]
    exact Nat.mod_le _ _

/-- Settles O18: `and` and `or` are `binary` of the bitwise operations, which act bit by bit. -/
theorem andOrResult : Obligations.AndOrResult := by
  intro s d b c vb vc hb hc
  refine ⟨⟨_, binary_next (· &&& ·) d hb hc, s.regWritten_setReg d _, fun k => ?_⟩,
    ⟨_, binary_next (· ||| ·) d hb hc, s.regWritten_setReg d _, fun k => ?_⟩⟩
  · rw [State.setReg_reg_same, BitVec.getLsbD_and]
  · rw [State.setReg_reg_same, BitVec.getLsbD_or]

/-- Settles O19: the masked complement is the arithmetic form. -/
theorem notResult : Obligations.NotResult :=
  fun s d _ vb hb => ⟨_, exec_not_next d hb, notWord_eq vb ▸ s.regWritten_setReg d _⟩

/-- Settles O20: the compares are `binary` of a truth word, and words are equal exactly when their values are. -/
theorem eqGtResult : Obligations.EqGtResult := by
  intro s d b c vb vc hb hc
  refine ⟨⟨_, binary_next _ d hb hc, ?_⟩, ⟨_, binary_next _ d hb hc, ?_⟩⟩
  · simpa only [truthWord, decide_eq_true_eq, BitVec.toNat_inj] using s.regWritten_setReg d (if vb = vc then 1 else 0)
  · simpa only [truthWord, decide_eq_true_eq] using s.regWritten_setReg d (if vc.toNat < vb.toNat then 1 else 0)

/-- Settles O21: the result's bound is the word operation's; `and` is at most its first source, `or` below the power of
2 that bounds both, and a remainder at most the dividend. -/
theorem resultsBelowBit15 : Obligations.ResultsBelowBit15 := by
  intro s d b c vb vc hb hc
  refine ⟨?_, answers_setReg_le (exec_not_next d hb) ?_, fun hvb hvc => ⟨?_, fun nonzero => ?_⟩⟩
  · simp only [List.forall_mem_cons, List.not_mem_nil, false_implies, implies_true, and_true]
    exact ⟨answers_binary_le addWords d hb hc (addWords_le vb vc),
      answers_binary_le multWords d hb hc (multWords_le vb vc),
      answers_binary_le _ d hb hc (truthWord_le _), answers_binary_le _ d hb hc (truthWord_le _)⟩
  · rw [notWord_toNat]
    omega
  · simp only [List.forall_mem_cons, List.not_mem_nil, false_implies, implies_true, and_true]
    refine ⟨answers_binary_le (· &&& ·) d hb hc ?_, answers_binary_le (· ||| ·) d hb hc ?_⟩
    · rw [BitVec.toNat_and]
      exact Nat.and_le_left.trans hvb
    · rw [BitVec.toNat_or]
      exact Nat.le_of_lt_succ (Nat.or_lt_two_pow (n := 15) (by omega) (by omega))
  · refine answers_setReg_le (exec_mod_next d hb hc nonzero) ?_
    rw [toNat_ofNat_mod]
    exact (Nat.mod_le _ _).trans hvb

end Sys2Proof.Machine
end

section
/-! PROOFS. The stack, move, control-flow and memory-access instructions (spec/42_control_flow.md to
44_memory_access.md). -/

namespace Sys2Proof.Machine

section
variable {s : State} {a b : Operand} {va vb : Word}

/-! ## What each completes in -/

theorem exec_set_next (d : Fin 8) (hb : s.val b = .ok vb) : exec (.set (.reg d) b) s = .next (s.setReg d vb) := by
  simp only [exec, execSet, dst_reg, hb, checked_ok]

/-- `push` of a value that resolves: what is left is the check for room. -/
theorem exec_push_checked (ha : s.val a = .ok va) : exec (.push a) s = checked (s.push va) s .next := by
  simp only [exec, execPush, ha, checked_ok]

/-- `pop` into a register: what is left is the check for an entry. -/
theorem exec_pop_checked (s : State) (d : Fin 8) :
    exec (.pop (.reg d)) s = checked s.pop s fun p => .next (p.2.setReg d p.1) := by
  simp only [exec, execPop, dst_reg, checked_ok]

theorem exec_jmp_next (ha : s.val a = .ok va) : exec (.jmp a) s = .next (s.setPc va) := by
  simp only [exec, execJmp, ha, checked_ok]

theorem isNonzero_iff {w : Word} : isNonzero w = true ↔ w.toNat ≠ 0 := by
  rw [isNonzero, bne_iff_ne, ne_eq, ne_eq, ← BitVec.toNat_inj]
  rfl

/-- An untaken jump leaves the pc where it is. -/
theorem exec_jt_next (ha : s.val a = .ok va) (hb : s.val b = .ok vb) :
    exec (.jt a b) s = .next (s.setPc (if va.toNat = 0 then s.pc else vb)) := by
  simp only [exec, execJt, ha, hb, checked_ok, isNonzero_iff]
  by_cases h : va.toNat = 0
  · simp only [h, ne_eq, not_true_eq_false, if_false, if_true]
    rfl
  · simp only [h, ne_eq, not_false_eq_true, if_false, if_true]

theorem exec_jf_next (ha : s.val a = .ok va) (hb : s.val b = .ok vb) :
    exec (.jf a b) s = .next (s.setPc (if va.toNat = 0 then vb else s.pc)) := by
  simp only [exec, execJf, ha, hb, checked_ok, isNonzero_iff]
  by_cases h : va.toNat = 0
  · simp only [h, ne_eq, not_true_eq_false, if_false, if_true]
  · simp only [h, ne_eq, not_false_eq_true, if_false, if_true]
    rfl

/-- `call` of a target that resolves: what is left is the check for room. -/
theorem exec_call_checked (ha : s.val a = .ok va) :
    exec (.call a) s = checked (s.push s.pc) s fun u => .next (u.setPc va) := by
  simp only [exec, execCall, ha, checked_ok]

theorem exec_ret_next (entry : 0 < s.sp) :
    exec .ret s = .next ((s.setSp (s.sp - 1)).setPc (s.slot (s.sp - 1))) := by
  simp only [exec, execRet, State.pop_ok entry, checked_ok]

/-- `rmem` of an address that resolves: what is left is the check of its range. -/
theorem exec_rmem_checked (d : Fin 8) (hb : s.val b = .ok vb) :
    exec (.rmem (.reg d) b) s = checked (s.load vb) s fun v => .next (s.setReg d v) := by
  simp only [exec, execRmem, dst_reg, hb, checked_ok]

/-- `wmem` of operands that resolve: what is left is the check of the address's range. -/
theorem exec_wmem_checked (ha : s.val a = .ok va) (hb : s.val b = .ok vb) :
    exec (.wmem a b) s = checked (s.store va vb) s .next := by
  simp only [exec, execWmem, ha, hb, checked_ok]

end

/-! ## The obligations -/

/-- Settles O24: both checks pass, and the value read is the value written. -/
theorem setResult : Obligations.SetResult :=
  fun s d _ vb hb => ⟨_, exec_set_next d hb, s.regWritten_setReg d vb⟩

/-- Settles O25: with room the check passes, and a push alone keeps the pc. -/
theorem pushResult : Obligations.PushResult := by
  intro s a v ha room
  rw [exec_push_checked ha, State.push_ok v room]
  exact ⟨_, rfl, s.pushed_setSlot v s.pc⟩

/-- Settles O26: with an entry the check passes; the count is one lower, and the destination holds the top. -/
theorem popResult : Obligations.PopResult := by
  intro s d entry
  rw [exec_pop_checked, State.pop_ok entry]
  have written := (s.setSp (s.sp - 1)).regWritten_setReg d (s.slot (s.sp - 1))
  exact ⟨_, rfl, ⟨written.sp, written.regs, written.bytes, written.slots, ⟨rfl, rfl, rfl⟩⟩, written.value, written.pc⟩

/-- Settles O27: a target that resolves is written to the pc. -/
theorem jmpResult : Obligations.JmpResult :=
  fun s _ v ha => ⟨_, exec_jmp_next ha, s.pcWritten_setPc v⟩

/-- Settles O28: each is a write of the pc, by the test of all 16 bits. -/
theorem jtJfResult : Obligations.JtJfResult :=
  fun s _ _ _ _ ha hb => ⟨⟨_, exec_jt_next ha hb, s.pcWritten_setPc _⟩, ⟨_, exec_jf_next ha hb, s.pcWritten_setPc _⟩⟩

/-- Settles O29: what `call` completes in is a push of the pc it runs with. -/
theorem callResult : Obligations.CallResult :=
  fun s _ v ha room => ⟨_, exec_call_next ha room, s.pushed_setSlot s.pc v⟩

/-- Settles O30: `ret` is a pop and a write of the pc, which keeps what the pop left. -/
theorem retResult : Obligations.RetResult := by
  intro s entry
  obtain ⟨sp, regs, bytes, slots, control⟩ := s.popped_setSp
  exact ⟨_, exec_ret_next entry, ⟨sp, regs, bytes, slots, ⟨control.status, control.fault, control.ev⟩⟩, rfl⟩

/-- Settles O31: the top slot of the stack the `call` left is the one it pushed the pc into, one below the count. -/
theorem callThenRetReturns : Obligations.CallThenRetReturns := by
  intro s a v ha room
  have pushed := s.pushed_setSlot s.pc v
  refine ⟨_, exec_call_next ha room, fun u hstk hsp => ?_⟩
  rw [pushed.sp] at hsp
  refine ⟨_, exec_ret_next (by omega), ?_, ?_⟩
  · rw [State.setPc_pc, hsp, Nat.add_sub_cancel, ← pushed.top]
    exact congrArg (Store.read · s.sp) hstk
  · rw [State.setPc_sp, State.setSp_sp, hsp, Nat.add_sub_cancel]

/-- Settles O32: an address in range passes the check. -/
theorem rmemResult : Obligations.RmemResult := by
  intro s d b addr hb range
  rw [exec_rmem_checked d hb, State.load_ok range]
  exact ⟨_, rfl, s.regWritten_setReg d _⟩

/-- Settles O33: an address in range passes the check, and the store writes that one word. -/
theorem wmemResult : Obligations.WmemResult := by
  intro s a b addr v ha hb range
  rw [exec_wmem_checked ha hb, State.store_ok v range]
  exact ⟨_, rfl, s.wordStored_setWord addr.toNat v⟩

end Sys2Proof.Machine
end

section
/-! PROOFS. The input, output and system instructions (spec/45_io_and_system.md). -/

namespace Sys2Proof.Machine

/-! ## What each completes in -/

theorem exec_out_next {s : State} {a : Operand} {v : Word} (ha : s.val a = .ok v) :
    exec (.out a) s = .next (s.emit (.output (v.extractLsb' 0 8))) := by
  simp only [exec, execOut, ha, checked_ok]

theorem exec_inp (s : State) (w : Word) : exec (.inp w) s = .next (s.emit (.input w)) := rfl

theorem exec_halt (s : State) : exec .halt s = .next s.halt := rfl

/-- The low byte of a word is its remainder by 256. -/
theorem extractLsb'_low_byte (v : Word) : v.extractLsb' 0 8 = BitVec.ofNat 8 (v.toNat % 256) := by
  apply BitVec.eq_of_toNat_eq
  rw [BitVec.extractLsb'_toNat, BitVec.toNat_ofNat, Nat.shiftRight_zero, Nat.mod_mod]

/-- A STEP of a core that is not Running answers the core as it is. -/
theorem step_of_not_running {s : State} (h : s.status ≠ .running) : step s = .next s := by
  obtain ⟨-, hstep⟩ | ⟨running, -⟩ | ⟨running, -⟩ := step_cases s
  · exact hstep
  · exact absurd running h
  · exact absurd running h

theorem State.report_of_halted {t : State} (halted : t.status = .halted) : t.report = .halted := by
  simp only [State.report, halted]

theorem State.report_of_faulted {t : State} (faulted : t.status = .faulted) : t.report = .fault t.fault := by
  simp only [State.report, faulted]

/-! ## The obligations -/

/-- Settles O34: `out` latches the low byte. -/
theorem outResult : Obligations.OutResult :=
  fun s _ v ha => ⟨_, exec_out_next ha, extractLsb'_low_byte v ▸ s.emitted_emit _⟩

/-- Settles O35: `in` is two words long, and latching an event keeps the Running status that made it due. -/
theorem inResult : Obligations.InResult := by
  intro s w
  refine ⟨⟨_, exec_inp s w, s.emitted_emit _⟩, fun due => ?_⟩
  exact ⟨_, due.step_eq_exec.trans (exec_inp _ w), (s.setPc (advance s.pc 2)).emitted_emit _,
    State.report_of_running due.running⟩

/-- Settles O37: `halt` is one word long and leaves a core that is not Running. -/
theorem haltResult : Obligations.HaltResult := by
  intro s
  refine ⟨exec_halt s, fun due => ?_⟩
  have halted := State.halt_status (s.setPc (advance s.pc 1))
  exact ⟨_, due.step_eq_exec.trans (exec_halt _), rfl, State.report_of_halted halted,
    step_of_not_running (by simp)⟩

end Sys2Proof.Machine
end

section
/-! PROOFS. The faults of the check and execute phases, and their order (spec/60_exceptions.md section 1,
40_step_fetch_resolve.md R127). -/

namespace Sys2Proof.Machine

/-! ## The check phase of every instruction -/

/-- `ResolvesFirst s as o`: before it does anything else, the outcome `o` resolves the operands `as` on `s`, in order. -/
inductive ResolvesFirst (s : State) : List Operand → Host.Outcome State Fault Refusal → Prop where
  /-- Nothing is left to resolve. -/
  | done (o : Host.Outcome State Fault Refusal) : ResolvesFirst s [] o
  /-- One operand is resolved, and the rest after it. -/
  | check {a : Operand} {as : List Operand} {k : Word → Host.Outcome State Fault Refusal}
      (rest : ∀ v, ResolvesFirst s as (k v)) : ResolvesFirst s (a :: as) (checked (s.val a) s k)

/-- An instruction with a destination operand checks it before anything else. -/
theorem exec_checks_destination (s : State) {i : Instr} {a : Operand} (h : i.destination = some a) :
    ∃ k, exec i s = checked (dst a) s k := by
  cases i with
  | halt | push | jmp | jt | jf | wmem | call | ret | out | inp | noop => exact absurd h (by simp [Instr.destination])
  | set | pop | eq | gt | add | mult | mod | and | or | not | rmem =>
    obtain rfl := Option.some.inj h
    exact ⟨_, rfl⟩

theorem binary_resolves (f : Word → Word → Word) (d : Fin 8) (b c : Operand) (s : State) :
    ResolvesFirst s [b, c] (binary f (.reg d) b c s) :=
  .check fun _ => .check fun _ => .done _

/-- An instruction whose destination, if it has one, is a register resolves its value operands in order, used or not,
before anything else (decision D10). -/
theorem exec_resolves_values (s : State) {i : Instr} (h : ∀ a, i.destination = some a → ∃ d, a = .reg d) :
    ResolvesFirst s i.valueOperands (exec i s) := by
  cases i with
  | halt | pop | ret | inp | noop => exact .done _
  | push | jmp | call | out => exact .check fun _ => .done _
  | jt | jf | wmem => exact .check fun _ => .check fun _ => .done _
  | set a | not a | rmem a =>
    obtain ⟨d, rfl⟩ := h a rfl
    exact .check fun _ => .done _
  | mod a =>
    obtain ⟨d, rfl⟩ := h a rfl
    exact .check fun _ => .check fun _ => .done _
  | eq a b c | gt a b c | add a b c | mult a b c | and a b c | or a b c =>
    obtain ⟨d, rfl⟩ := h a rfl
    exact binary_resolves _ d b c s

/-- An operand that is no invalid word resolves. -/
theorem State.val_ok_of_ne_invalid (s : State) {a : Operand} (h : ∀ w, a ≠ .invalid w) : ∃ v, s.val a = .ok v := by
  cases a with
  | lit n => exact ⟨_, rfl⟩
  | reg i => exact ⟨_, rfl⟩
  | invalid w => exact absurd rfl (h w)

/-- Of operands resolved in order, the first invalid word is the one whose fault is raised. -/
theorem ResolvesFirst.first_invalid {s : State} {before after : List Operand} {w : Word}
    {o : Host.Outcome State Fault Refusal} (good : ∀ a ∈ before, ∀ u, a ≠ .invalid u)
    (h : ResolvesFirst s (before ++ .invalid w :: after) o) : o = .next (s.raise (.illegalParameterRead w)) := by
  induction before generalizing o with
  | nil =>
    cases h with
    | check rest => rw [State.val_invalid, checked_error]
  | cons a before ih =>
    cases h with
    | check rest =>
      obtain ⟨v, hv⟩ := s.val_ok_of_ne_invalid (good a (by simp))
      rw [hv, checked_ok]
      exact ih (fun a ha => good a (by simp [ha])) (rest v)

/-! ## The obligations -/

/-- Settles O38: the destination is checked first, and its rejected word is the fault's. -/
theorem destinationFaults : Obligations.DestinationFaults := by
  intro s i a hi bad
  obtain ⟨k, hk⟩ := exec_checks_destination s hi
  rw [hk, dst_error bad, checked_error]
  exact ⟨_, rfl, s.faults_raise _⟩

/-- Settles O39: the value operands are resolved in order, so the first invalid one faults. -/
theorem valueOperandFaults : Obligations.ValueOperandFaults := by
  intro s i before after w hdst hvals good
  have resolves := exec_resolves_values s hdst
  rw [hvals] at resolves
  exact ⟨_, resolves.first_invalid good, s.faults_raise _⟩

/-- Settles O40: with good operands what is left of each instruction is its own check, which fails on the state before
anything is written. -/
theorem executePhaseFaults : Obligations.ExecutePhaseFaults := by
  refine ⟨fun s d b c vb hb hc => ?_, fun s d b addr hb range => ?_, fun s a b addr v ha hb range => ?_,
    fun s a v ha full => ⟨?_, ?_⟩, fun s d empty => ⟨?_, ?_⟩⟩
  · rw [exec_mod_checked d hb hc, modWords_zero]
    exact ⟨_, rfl, s.faults_raise _⟩
  · rw [exec_rmem_checked d hb, State.load_range range]
    exact ⟨_, rfl, s.faults_raise _⟩
  · rw [exec_wmem_checked ha hb, State.store_range v range]
    exact ⟨_, rfl, s.faults_raise _⟩
  · rw [exec_push_checked ha, State.push_full v full.ge]
    exact ⟨_, rfl, s.faults_raise _⟩
  · rw [exec_call_checked ha, State.push_full s.pc full.ge]
    exact ⟨_, rfl, s.faults_raise _⟩
  · rw [exec_pop_checked, State.pop_empty empty]
    exact ⟨_, rfl, s.faults_raise _⟩
  · rw [exec, execRet, State.pop_empty empty]
    exact ⟨_, rfl, s.faults_raise _⟩

end Sys2Proof.Machine
end

section
/-! PROOFS. What each instruction leaves unchanged, read off the effects of the instruction set. -/

namespace Sys2Proof.Machine

/-! ## Frames of an effect -/

section
variable {i : Instr} {s t : State}

theorem Effect.mem_eq (h : Effect i s t) (hi : i.opcode ≠ .wmem) : t.mem = s.mem := by
  cases h with
  | stored addr v hop => exact absurd hop hi
  | _ => rfl

theorem Effect.reg_eq (h : Effect i s t) {e : Fin 8} (hi : i.destination ≠ some (.reg e)) : t.reg e = s.reg e := by
  cases h with
  | wrote d v hd | popped d _ hd =>
    exact State.setReg_reg_ne _ _ fun heq => hi (heq ▸ hd)
  | _ => rfl

theorem Effect.stack_eq (h : Effect i s t) (hi : i.opcode ∉ [Opcode.push, .pop, .call, .ret]) :
    t.stk = s.stk ∧ t.sp = s.sp := by
  cases h with
  | pushed _ hop | called _ hop | popped _ hop | returned hop => exact absurd hop (by simp_all)
  | _ => exact ⟨rfl, rfl⟩

theorem Effect.ev_eq (h : Effect i s t) (hi : i.opcode ∉ [Opcode.out, .inp]) : t.ev = s.ev := by
  cases h with
  | emitted e hop => exact absurd hop hi
  | _ => rfl

theorem Effect.pc_eq (h : Effect i s t) (hi : i.opcode ∉ [Opcode.jmp, .jt, .jf, .call, .ret]) : t.pc = s.pc := by
  cases h with
  | jumped v hop | called v hop | returned hop => exact absurd hop (by simp_all)
  | _ => rfl

/-- Status and fault record are kept, or a fault was raised, or the core was halted. -/
theorem Effect.status_cases (h : Effect i s t) :
    (t.status = s.status ∧ t.fault = s.fault) ∨ (∃ f, t = s.raise f) ∨ (i = .halt ∧ t = s.halt) := by
  cases h with
  | raised f => exact .inr (.inl ⟨f, rfl⟩)
  | halted hi => exact .inr (.inr ⟨hi, rfl⟩)
  | _ => exact .inl ⟨rfl, rfl⟩

end

/-! ## The obligations -/

/-- Settles O43: of the effects a store alone writes memory. -/
theorem onlyWmemWritesMemory : Obligations.OnlyWmemWritesMemory := by
  intro i s t hi h
  have opcode : i.opcode ≠ .wmem := by
    cases i with
    | wmem a b => exact absurd rfl (hi a b)
    | _ => simp [Instr.opcode]
  exact State.sameBytes_of_mem ((exec_effect h).mem_eq opcode) _

/-- Settles O44: the two effects that write a register write the destination. -/
theorem onlyDestinationWritten : Obligations.OnlyDestinationWritten :=
  fun _ _ _ _ hi h => (exec_effect h).reg_eq hi

/-- Settles O45: the four effects that touch the stack are those of the four instructions. -/
theorem onlyStackInstructionsTouchStack : Obligations.OnlyStackInstructionsTouchStack := by
  intro i s t hi h
  obtain ⟨stk, sp⟩ := (exec_effect h).stack_eq hi
  exact ⟨State.sameSlots_of_stk stk _, sp⟩

/-- Settles O46: of the effects a latched event alone writes the latch. -/
theorem onlyOutAndInEmit : Obligations.OnlyOutAndInEmit :=
  fun _ _ _ hi h => (exec_effect h).ev_eq hi

/-- Settles O47: the three effects that write the pc are those of the five instructions. -/
theorem onlyControlFlowMovesPc : Obligations.OnlyControlFlowMovesPc :=
  fun _ _ _ hi h => (exec_effect h).pc_eq hi

end Sys2Proof.Machine
end

section
/-! PROOFS. The STEP transaction (spec/40_step_fetch_resolve.md). -/

namespace Sys2Proof.Machine

/-! ## A STEP of a Running core -/

/-- The fetch phase is a check like the others: its fault is raised, or the fetched instruction runs. -/
theorem step_of_running {s : State} (running : s.status = .running) :
    step s = checked s.fetchInstr.1 s.fetchInstr.2 fun i => exec i s.fetchInstr.2 := by
  simp only [step, running]
  obtain ⟨r, u⟩ := s.fetchInstr
  cases r with
  | error f => rfl
  | ok i => rfl

/-- What a STEP of a Running core does: it raises a fault after some fetches, or has an effect of the instruction due. -/
theorem step_effect {s t : State} (running : s.status = .running) (h : step s = .next t) :
    ∃ p, (∃ f, t = (s.setPc p).raise f) ∨ (∃ i, s.Due i ∧ Effect i (s.setPc p) t) := by
  obtain ⟨terminated, -⟩ | ⟨-, f, p, -, hstep⟩ | ⟨-, i, p, hfetch, hstep⟩ := step_cases s
  · exact absurd running terminated
  · exact ⟨p, .inl ⟨f, Host.Outcome.next.inj (h.symm.trans hstep)⟩⟩
  · exact ⟨p, .inr ⟨i, State.due_of_fetchInstr running hfetch, exec_effect (hstep.symm.trans h)⟩⟩

/-- A STEP that leaves a Running core Faulted only moved the pc and raised a fault. -/
theorem step_faulted {s t : State} (running : s.status = .running) (h : step s = .next t)
    (faulted : t.status = .faulted) : ∃ p f, t = (s.setPc p).raise f := by
  obtain ⟨p, ⟨f, ht⟩ | ⟨i, -, effect⟩⟩ := step_effect running h
  · exact ⟨p, f, ht⟩
  · obtain ⟨same, -⟩ | ⟨f, ht⟩ | ⟨-, rfl⟩ := effect.status_cases
    · rw [faulted, State.setPc_status, running] at same
      cases same
    · exact ⟨p, f, ht⟩
    · cases faulted

/-! ## Every meaning answers a next state -/

theorem binary_answers (f : Word → Word → Word) (a b c : Operand) (s : State) : ∃ t, binary f a b c s = .next t :=
  checked_answers fun _ => checked_answers fun _ => checked_answers fun _ => ⟨_, rfl⟩

theorem exec_answers (i : Instr) (s : State) : ∃ t, exec i s = .next t := by
  cases i with
  | halt | inp | noop => exact ⟨_, rfl⟩
  | jmp | ret | out => exact checked_answers fun _ => ⟨_, rfl⟩
  | set | push | pop | jt | jf | not | call => exact checked_answers fun _ => checked_answers fun _ => ⟨_, rfl⟩
  | rmem | wmem => exact checked_answers fun _ => checked_answers fun _ => checked_answers fun _ => ⟨_, rfl⟩
  | mod =>
    exact checked_answers fun _ => checked_answers fun _ => checked_answers fun _ => checked_answers fun _ => ⟨_, rfl⟩
  | eq a b c | gt a b c | add a b c | mult a b c | and a b c | or a b c => exact binary_answers _ a b c s

/-! ## The obligations -/

/-- Settles O8: the pc an instruction runs with is past its words. -/
theorem stepRunsDueInstruction : Obligations.StepRunsDueInstruction :=
  fun _ _ due => due.step_eq_exec

/-- Settles O9: the fetch phase fails after one fetch. -/
theorem illegalOpcodeFaults : Obligations.IllegalOpcodeFaults := by
  intro s running range illegal
  rw [step_of_running running, State.fetchInstr_illegal range illegal]
  exact ⟨_, rfl, (s.setPc (advance s.pc 1)).faults_raise _⟩

/-- Settles O10: the fetch phase fails before any fetch. -/
theorem pcOutOfRangeFaults : Obligations.PcOutOfRangeFaults := by
  intro s running range
  rw [step_of_running running, State.fetchInstr_range range]
  exact ⟨_, rfl, s.faults_raise _⟩

/-- Settles O11: the step is the first case of `step_cases`, and the report is read off the status. -/
theorem terminatedStepChangesNothing : Obligations.TerminatedStepChangesNothing :=
  fun _ terminated => ⟨step_of_not_running terminated, State.report_of_halted, State.report_of_faulted⟩

/-- Settles O12: a core that is not Running answers itself, a failed fetch its fault, and every meaning a next state. -/
theorem everyStepAnswers : Obligations.EveryStepAnswers := by
  intro s
  obtain ⟨-, hstep⟩ | ⟨-, f, p, -, hstep⟩ | ⟨-, i, p, -, hstep⟩ := step_cases s
  · exact ⟨_, hstep⟩
  · exact ⟨_, hstep⟩
  · rw [hstep]
    exact exec_answers i _

/-- Settles O41: such a STEP moved the pc and raised a fault. -/
theorem faultedStepWritesNothing : Obligations.FaultedStepWritesNothing := by
  intro s t running h faulted
  obtain ⟨p, f, rfl⟩ := step_faulted running h faulted
  exact ⟨f, rfl⟩

/-- Settles O42: of the effects on a Running core `halt`'s alone leaves the status Halted; and a due `halt` has it. -/
theorem onlyHaltHalts : Obligations.OnlyHaltHalts := by
  intro s t running h
  constructor
  · intro halted
    obtain ⟨p, ⟨f, rfl⟩ | ⟨i, due, effect⟩⟩ := step_effect running h
    · cases halted
    · obtain ⟨same, -⟩ | ⟨f, rfl⟩ | ⟨rfl, -⟩ := effect.status_cases
      · rw [halted, State.setPc_status, running] at same
        cases same
      · cases halted
      · exact due
  · intro due
    rw [due.step_eq_exec, exec_halt] at h
    exact Host.Outcome.next.inj h ▸ State.halt_status _

end Sys2Proof.Machine
end

section
/-! PROOFS. What a program can see does not depend on hidden state (spec/10_state.md sections 5 to 7). -/

namespace Sys2Proof.Machine

/-! ## Updates of two states that look the same -/

namespace State.SameToProgram

section
variable {s s' : State}

theorem reg_eq (h : s.SameToProgram s') (i : Fin 8) : s'.reg i = s.reg i := by
  simp only [State.reg, h.x]

theorem wordAt_eq (h : s.SameToProgram s') (a : Nat) : s'.wordAt a = s.wordAt a := by
  simp only [State.wordAt, h.mem]

/-- The fault record may differ, so the two states may even raise different faults. -/
theorem raise (h : s.SameToProgram s') (f f' : Fault) : (s.raise f).SameToProgram (s'.raise f') :=
  ⟨h.mem, h.x, h.pc, h.sp, rfl, h.valid⟩

theorem setReg (h : s.SameToProgram s') (d : Fin 8) (v : Word) : (s.setReg d v).SameToProgram (s'.setReg d v) :=
  ⟨h.mem, by simp only [State.setReg, h.x], h.pc, h.sp, h.status, h.valid⟩

theorem setPc (h : s.SameToProgram s') (v : Word) : (s.setPc v).SameToProgram (s'.setPc v) :=
  ⟨h.mem, h.x, rfl, h.sp, h.status, h.valid⟩

theorem setWord (h : s.SameToProgram s') (a : Nat) (v : Word) : (s.setWord a v).SameToProgram (s'.setWord a v) :=
  ⟨by simp only [State.setWord_mem, h.mem], h.x, h.pc, h.sp, h.status, h.valid⟩

theorem halt (h : s.SameToProgram s') : s.halt.SameToProgram s'.halt :=
  ⟨h.mem, h.x, h.pc, h.sp, rfl, h.valid⟩

theorem emit (h : s.SameToProgram s') (e e' : Event) : (s.emit e).SameToProgram (s'.emit e') :=
  ⟨h.mem, h.x, h.pc, h.sp, h.status, h.valid⟩

/-- A push overwrites a slot that may have been stale and makes it valid in both. -/
theorem push (h : s.SameToProgram s') (v : Word) :
    ((s.setSlot s.sp v).setSp (s.sp + 1)).SameToProgram ((s'.setSlot s'.sp v).setSp (s'.sp + 1)) := by
  refine ⟨h.mem, h.x, h.pc, congrArg (· + 1) h.sp, h.status, fun j hj => ?_⟩
  rw [State.setSp_sp] at hj
  rw [State.setSp_slot, State.setSp_slot, h.sp]
  by_cases top : j = s.sp
  · rw [top, State.setSlot_slot_same, State.setSlot_slot_same]
  · rw [State.setSlot_slot_ne _ _ top, State.setSlot_slot_ne _ _ top, h.valid j (by omega)]

/-- A pop only makes a valid slot stale. -/
theorem pop (h : s.SameToProgram s') : (s.setSp (s.sp - 1)).SameToProgram (s'.setSp (s'.sp - 1)) :=
  ⟨h.mem, h.x, h.pc, congrArg (· - 1) h.sp, h.status, fun j hj => h.valid j (by rw [State.setSp_sp] at hj; omega)⟩

theorem top_eq (h : s.SameToProgram s') (entry : 0 < s.sp) : s'.slot (s'.sp - 1) = s.slot (s.sp - 1) := by
  rw [h.sp, h.valid _ (by omega)]

/-- The fetch phase reads the memory and the pc alone. -/
theorem fetchInstr (h : s.SameToProgram s') :
    s'.fetchInstr.1 = s.fetchInstr.1 ∧ s.fetchInstr.2.SameToProgram s'.fetchInstr.2 := by
  by_cases range : s.pc.toNat ≤ 32767
  · have range' : s'.pc.toNat ≤ 32767 := h.pc ▸ range
    cases hk : Opcode.ofWord (s.wordAt s.pc.toNat) with
    | none =>
      have illegal := Opcode.ofWord_none.mp hk
      rw [State.fetchInstr_illegal range illegal, State.fetchInstr_illegal range' (by rwa [h.pc, h.wordAt_eq]), h.pc,
        h.wordAt_eq]
      exact ⟨rfl, h.setPc _⟩
    | some k =>
      rw [State.fetchInstr_ok range hk, State.fetchInstr_ok range' (by rwa [h.pc, h.wordAt_eq]), h.pc]
      simp only [h.wordAt_eq]
      exact ⟨trivial, h.setPc _⟩
  · have range' : 32767 < s'.pc.toNat := by rw [h.pc]; omega
    rw [State.fetchInstr_range (Nat.not_le.mp range), State.fetchInstr_range range', h.pc]
    exact ⟨rfl, h⟩

end

end State.SameToProgram

/-! ## Outcomes that look the same -/

/-- The next states of two outcomes look the same to a program. -/
def SeenAlike (o o' : Host.Outcome State Fault Refusal) : Prop :=
  ∀ t t', o = .next t → o' = .next t' → t.SameToProgram t'

theorem seenAlike_next {t t' : State} (h : t.SameToProgram t') : SeenAlike (.next t) (.next t') :=
  fun _ _ ht ht' => Host.Outcome.next.inj ht ▸ Host.Outcome.next.inj ht' ▸ h

section
variable {s s' : State}

/-- A check with the same result on both states. -/
theorem checked_seenAlike {α : Type} {r r' : Except Fault α} {k k' : α → Host.Outcome State Fault Refusal}
    (h : s.SameToProgram s') (hr : r' = r) (hk : ∀ v, SeenAlike (k v) (k' v)) :
    SeenAlike (checked r s k) (checked r' s' k') := by
  subst hr
  cases r' with
  | ok v => exact hk v
  | error f => exact seenAlike_next (h.raise f f)

theorem push_seenAlike {k k' : State → Host.Outcome State Fault Refusal} {v v' : Word} (h : s.SameToProgram s')
    (hv : v' = v) (hk : ∀ u u', u.SameToProgram u' → SeenAlike (k u) (k' u')) :
    SeenAlike (checked (s.push v) s k) (checked (s'.push v') s' k') := by
  subst hv
  by_cases room : s.sp < 4096
  · rw [State.push_ok v' room, State.push_ok v' (by rwa [h.sp]), checked_ok, checked_ok]
    exact hk _ _ (h.push v')
  · rw [State.push_full v' (by omega), State.push_full v' (by rw [h.sp]; omega)]
    exact seenAlike_next (h.raise _ _)

theorem pop_seenAlike {k k' : Word × State → Host.Outcome State Fault Refusal} (h : s.SameToProgram s')
    (hk : ∀ v u u', u.SameToProgram u' → SeenAlike (k (v, u)) (k' (v, u'))) :
    SeenAlike (checked s.pop s k) (checked s'.pop s' k') := by
  by_cases entry : 0 < s.sp
  · rw [State.pop_ok entry, State.pop_ok (by rwa [h.sp]), checked_ok, checked_ok, h.top_eq entry]
    exact hk _ _ _ h.pop
  · rw [State.pop_empty (by omega), State.pop_empty (by rw [h.sp]; omega)]
    exact seenAlike_next (h.raise _ _)

theorem load_seenAlike {k k' : Word → Host.Outcome State Fault Refusal} (h : s.SameToProgram s') (addr : Word)
    (hk : ∀ v, SeenAlike (k v) (k' v)) : SeenAlike (checked (s.load addr) s k) (checked (s'.load addr) s' k') :=
  checked_seenAlike h (by simp only [State.load, h.wordAt_eq]) hk

theorem store_seenAlike {k k' : State → Host.Outcome State Fault Refusal} (h : s.SameToProgram s') (addr v : Word)
    (hk : ∀ u u', u.SameToProgram u' → SeenAlike (k u) (k' u')) :
    SeenAlike (checked (s.store addr v) s k) (checked (s'.store addr v) s' k') := by
  by_cases range : addr.toNat ≤ 32767
  · rw [State.store_ok v range, State.store_ok v range, checked_ok, checked_ok]
    exact hk _ _ (h.setWord addr.toNat v)
  · rw [State.store_range v (by omega), State.store_range v (by omega)]
    exact seenAlike_next (h.raise _ _)

theorem dst_seenAlike {k k' : Fin 8 → Host.Outcome State Fault Refusal} (h : s.SameToProgram s') (a : Operand)
    (hk : ∀ d, SeenAlike (k d) (k' d)) : SeenAlike (checked (dst a) s k) (checked (dst a) s' k') :=
  checked_seenAlike h rfl hk

theorem val_seenAlike {k k' : Word → Host.Outcome State Fault Refusal} (h : s.SameToProgram s') (a : Operand)
    (hk : ∀ v, SeenAlike (k v) (k' v)) : SeenAlike (checked (s.val a) s k) (checked (s'.val a) s' k') :=
  checked_seenAlike h (State.val_congr h.x a) hk

theorem binary_seenAlike (h : s.SameToProgram s') (f : Word → Word → Word) (a b c : Operand) :
    SeenAlike (binary f a b c s) (binary f a b c s') :=
  dst_seenAlike h a fun d => val_seenAlike h b fun vb => val_seenAlike h c fun vc => seenAlike_next (h.setReg d (f vb vc))

/-- Every meaning, check by check: it reads registers, memory, the pc and valid slots alone. -/
theorem exec_seenAlike (h : s.SameToProgram s') (i : Instr) : SeenAlike (exec i s) (exec i s') := by
  cases i with
  | halt => exact seenAlike_next h.halt
  | noop => exact seenAlike_next h
  | inp w => exact seenAlike_next (h.emit _ _)
  | out a => exact val_seenAlike h a fun v => seenAlike_next (h.emit _ _)
  | set a b => exact dst_seenAlike h a fun d => val_seenAlike h b fun v => seenAlike_next (h.setReg d v)
  | not a b => exact dst_seenAlike h a fun d => val_seenAlike h b fun v => seenAlike_next (h.setReg d _)
  | eq a b c | gt a b c | add a b c | mult a b c | and a b c | or a b c => exact binary_seenAlike h _ a b c
  | mod a b c =>
    exact dst_seenAlike h a fun d => val_seenAlike h b fun vb => val_seenAlike h c fun vc =>
      checked_seenAlike h rfl fun r => seenAlike_next (h.setReg d r)
  | rmem a b =>
    exact dst_seenAlike h a fun d => val_seenAlike h b fun addr => load_seenAlike h addr fun v =>
      seenAlike_next (h.setReg d v)
  | wmem a b =>
    exact val_seenAlike h a fun addr => val_seenAlike h b fun v => store_seenAlike h addr v fun _ _ hu => seenAlike_next hu
  | jmp a => exact val_seenAlike h a fun v => seenAlike_next (h.setPc v)
  | jt a b =>
    refine val_seenAlike h a fun c => val_seenAlike h b fun v => seenAlike_next ?_
    split
    · exact h.setPc v
    · exact h
  | jf a b =>
    refine val_seenAlike h a fun c => val_seenAlike h b fun v => seenAlike_next ?_
    split
    · exact h
    · exact h.setPc v
  | push a => exact val_seenAlike h a fun v => push_seenAlike h rfl fun _ _ hu => seenAlike_next hu
  | call a => exact val_seenAlike h a fun v => push_seenAlike h h.pc fun _ _ hu => seenAlike_next (hu.setPc v)
  | pop a => exact dst_seenAlike h a fun d => pop_seenAlike h fun v _ _ hu => seenAlike_next (hu.setReg d v)
  | ret => exact pop_seenAlike h fun v _ _ hu => seenAlike_next (hu.setPc v)

end

/-! ## The obligation -/

/-- Settles O48: states that look the same are both Running or both not; if they are, they fetch alike and what they
fetch runs alike. -/
theorem hiddenStateNotSeen : Obligations.HiddenStateNotSeen := by
  intro s s' t t' h ht ht'
  by_cases running : s.status = .running
  · rw [step_of_running running] at ht
    rw [step_of_running (h.status.trans running)] at ht'
    obtain ⟨fetched, h⟩ := h.fetchInstr
    exact checked_seenAlike h fetched (fun i => exec_seenAlike h i) t t' ht ht'
  · rw [step_of_not_running running] at ht
    rw [step_of_not_running (h.status.symm ▸ running)] at ht'
    exact seenAlike_next h t t' ht ht'

end Sys2Proof.Machine
end

section
/-! PROOFS. The host transactions (spec/60_exceptions.md section 6, 45_io_and_system.md R205, 70_reset_and_hazards.md
section 1). -/

namespace Sys2Proof.Machine

/-- STEP answers what STEP leaves. -/
theorem step_eq_stepped (s : State) : step s = .next s.stepped := by
  obtain ⟨t, ht⟩ := everyStepAnswers s
  rw [ht, State.stepped_eq ht]

/-! ## What each transaction answers -/

section
variable (σ : Session)

/-- LOAD is accepted under the three conditions of decision D18, and writes the memory; else it is refused. -/
theorem Session.transact_load_cases (image : List Byte) :
    ((σ.fresh = true ∧ image.length % 2 = 0 ∧ image.length ≤ 65536) ∧
      σ.transact (.load image) = (.done, ⟨{ σ.core with mem := Memory.ofImage 0 image }, false⟩)) ∨
    (¬ (σ.fresh = true ∧ image.length % 2 = 0 ∧ image.length ≤ 65536) ∧
      σ.transact (.load image) = (.refused, ⟨σ.core, false⟩)) := by
  by_cases fresh : σ.fresh = true
  · cases hload : σ.core.loadImage image with
    | some t =>
      obtain ⟨even, fits, rfl⟩ := State.loadImage_inv hload
      exact .inl ⟨⟨fresh, even, fits⟩, by simp only [Session.transact, fresh, if_true, hload]⟩
    | none =>
      refine .inr ⟨fun ⟨_, even, fits⟩ => ?_, by simp only [Session.transact, fresh, if_true, hload]⟩
      rw [State.loadImage_ok _ even fits] at hload
      cases hload
  · exact .inr ⟨fun h => fresh h.1, by simp only [Session.transact, if_neg fresh]⟩

theorem Session.transact_writeInput (w : Word) (b : Byte) :
    ∃ r, σ.transact (.writeInput w b) = (r, ⟨(σ.core.writeInput w b).2, false⟩) := by
  simp only [Session.transact]
  split <;> next h => exact ⟨_, by rw [h]⟩

theorem Session.transact_access_cases (it : Item) :
    (∃ v, σ.core.access it = some v ∧ σ.transact (.access it) = (.value v, ⟨σ.core, false⟩)) ∨
    (σ.core.access it = none ∧ σ.transact (.access it) = (.refused, ⟨σ.core, false⟩)) := by
  cases h : σ.core.access it with
  | some v => exact .inl ⟨v, rfl, by simp only [Session.transact, h]⟩
  | none => exact .inr ⟨rfl, by simp only [Session.transact, h]⟩

theorem Session.transact_assign_cases (it : Item) (v : Word) :
    (∃ t, σ.core.assign it v = some t ∧ σ.transact (.assign it v) = (.done, ⟨t, false⟩)) ∨
    (σ.core.assign it v = none ∧ σ.transact (.assign it v) = (.refused, ⟨σ.core, false⟩)) := by
  cases h : σ.core.assign it v with
  | some t => exact .inl ⟨t, rfl, by simp only [Session.transact, h]⟩
  | none => exact .inr ⟨rfl, by simp only [Session.transact, h]⟩

/-- An accessor read leaves the core as it was, accepted or refused. -/
theorem Session.transact_access_core (it : Item) : (σ.transact (.access it)).2.core = σ.core := by
  obtain ⟨v, -, h⟩ | ⟨-, h⟩ := σ.transact_access_cases it
  · rw [h]
  · rw [h]

/-- RESET alone makes LOAD legal. -/
theorem Session.fresh_transact_iff (tr : Transaction) : (σ.transact tr).2.fresh = true ↔ tr = .reset := by
  cases tr with
  | reset => exact ⟨fun _ => rfl, fun _ => rfl⟩
  | step => simp [Session.transact]
  | pullEvent => simp [Session.transact]
  | load image =>
    obtain ⟨-, h⟩ | ⟨-, h⟩ := σ.transact_load_cases image
    · simp [h]
    · simp [h]
  | writeInput w b =>
    obtain ⟨r, h⟩ := σ.transact_writeInput w b
    simp [h]
  | access it =>
    obtain ⟨v, -, h⟩ | ⟨-, h⟩ := σ.transact_access_cases it
    · simp [h]
    · simp [h]
  | assign it v =>
    obtain ⟨t, -, h⟩ | ⟨-, h⟩ := σ.transact_assign_cases it v
    · simp [h]
    · simp [h]

end

/-! ## WRITE_INPUT by its destination word -/

section
variable {s : State}

theorem State.writeInput_of_reg {w : Word} {d : Fin 8} (b : Byte) (running : s.status = .running)
    (hw : w.toNat = 0x8000 + d.val) : s.writeInput w b = (none, s.setReg d (b.setWidth 16)) := by
  have base : IsReg w := show 0x8000 ≤ w.toNat ∧ w.toNat ≤ 0x8007 by omega
  have number : regIdx w = d := Fin.ext (by have := regIdx_val base; omega)
  simp only [State.writeInput, running, Operand.ofWord_reg base, number, dst_reg]

theorem State.writeInput_of_not_reg {w : Word} (b : Byte) (running : s.status = .running)
    (hw : w.toNat < 0x8000 ∨ 0x8007 < w.toNat) :
    s.writeInput w b = (some (.illegalParameterWrite w), s.raise (.illegalParameterWrite w)) := by
  have bad : ∀ d, Operand.ofWord w ≠ .reg d := fun d hd => by
    have base := (Operand.ofWord_eq_reg_iff.mp hd).1
    omega
  simp only [State.writeInput, running, dst_error bad, Operand.word_ofWord]

theorem State.writeInput_of_not_running (w : Word) (b : Byte) (h : s.status ≠ .running) :
    s.writeInput w b = (none, s) := by
  cases hs : s.status with
  | running => exact absurd hs h
  | halted | faulted => simp only [State.writeInput, hs]

end

/-! ## Accessor writes -/

/-- The accepted accessor writes: `Assigned s v it t` says that writing `v` to the item `it` of `s` leaves `t`. -/
inductive Assigned (s : State) (v : Word) : Item → State → Prop where
  /-- The pc takes any word. -/
  | pc : Assigned s v .pc (s.setPc v)
  /-- So does a register. -/
  | reg (i : Fin 8) : Assigned s v (.reg i.val) (s.setReg i v)
  /-- So does a memory word in range. -/
  | mem {a : Nat} (range : a < 32768) : Assigned s v (.mem a) (s.setWord a v)
  /-- The stack count takes at most the stack's capacity. -/
  | sp (range : v.toNat ≤ 4096) : Assigned s v .sp (s.setSp v.toNat)
  /-- A slot in range takes any word. -/
  | slot {j : Nat} (range : j < 4096) : Assigned s v (.slot j) (s.setSlot j v)

theorem State.assigned_of_assign {s t : State} {it : Item} {v : Word} (h : s.assign it v = some t) :
    Assigned s v it t := by
  cases it with
  | pc => exact Option.some.inj h ▸ .pc
  | reg i =>
    obtain ⟨range, ht⟩ := Option.dite_none_right_eq_some.mp h
    exact Option.some.inj ht ▸ .reg ⟨i, range⟩
  | mem a =>
    obtain ⟨range, ht⟩ := Option.ite_none_right_eq_some.mp h
    exact Option.some.inj ht ▸ .mem range
  | sp =>
    obtain ⟨range, ht⟩ := Option.ite_none_right_eq_some.mp h
    exact Option.some.inj ht ▸ .sp range
  | slot j =>
    obtain ⟨range, ht⟩ := Option.ite_none_right_eq_some.mp h
    exact Option.some.inj ht ▸ .slot range

section
variable {s t : State} {v : Word} {it : Item}

theorem Assigned.control (h : Assigned s v it t) : s.SameControl t := by
  cases h <;> exact ⟨rfl, rfl, rfl⟩

theorem Assigned.sp_eq (h : Assigned s v it t) (hit : it ≠ .sp) : t.sp = s.sp := by
  cases h with
  | sp => exact absurd rfl hit
  | _ => rfl

theorem Assigned.reg_eq (h : Assigned s v it t) {e : Fin 8} (hit : it ≠ .reg e.val) : t.reg e = s.reg e := by
  cases h with
  | reg i => exact State.setReg_reg_ne s v fun he => hit (by rw [he])
  | _ => rfl

theorem Assigned.reads_back (h : Assigned s v it t) : t.access it = some v := by
  cases h with
  | pc => rfl
  | reg i => simp [State.access]
  | mem range => simp [State.access, range]
  | sp range => simp [State.access]
  | slot range => simp [State.access, range]

/-- No two items overlap. -/
theorem Assigned.access_eq (h : Assigned s v it t) {o : Item} (ho : o ≠ it) : t.access o = s.access o := by
  cases h with
  | pc =>
    cases o with
    | pc => exact absurd rfl ho
    | _ => rfl
  | reg i =>
    cases o with
    | reg k =>
      have other (hk : k < 8) : (⟨k, hk⟩ : Fin 8) ≠ i := fun heq => ho (by rw [← heq])
      simp only [State.access, State.setReg_reg_ne s v (other _)]
    | _ => rfl
  | @mem a =>
    cases o with
    | mem k =>
      have other : k ≠ a := fun heq => ho (by rw [heq])
      simp only [State.access, State.setWord_wordAt_ne s v other]
    | _ => rfl
  | sp =>
    cases o with
    | sp => exact absurd rfl ho
    | _ => rfl
  | @slot j =>
    cases o with
    | slot k =>
      have other : k ≠ j := fun heq => ho (by rw [heq])
      simp only [State.access, State.setSlot_slot_ne s v other]
    | _ => rfl

theorem State.access_none_iff : s.access it = none ↔ it.OutOfRange := by
  cases it <;> simp [State.access, Item.OutOfRange]

theorem State.assign_none_iff : s.assign it v = none ↔ it.OutOfRange ∨ (it = .sp ∧ 4096 < v.toNat) := by
  cases it <;> simp [State.assign, Item.OutOfRange]

end

/-! ## The obligations -/

/-- Settles O53: the two cases of a LOAD are those of decision D18. -/
theorem loadRefusals : Obligations.LoadRefusals := by
  intro σ image
  obtain ⟨legal, h⟩ | ⟨illegal, h⟩ := σ.transact_load_cases image
  · rw [h]
    exact ⟨⟨fun _ => legal, fun _ => rfl⟩, fun refused => absurd rfl refused, σ.fresh_transact_iff⟩
  · rw [h]
    exact ⟨⟨fun done => absurd done (by simp), fun legal => absurd legal illegal⟩, fun _ => ⟨rfl, rfl⟩,
      σ.fresh_transact_iff⟩

/-- Settles O56: a word in the register range names its register, and any other is a rejected destination. -/
theorem writeInputRule : Obligations.WriteInputRule := by
  intro s w b
  refine ⟨fun d running hw => ?_, fun running hw => ?_, s.writeInput_of_not_running w b⟩
  · rw [State.writeInput_of_reg b running hw, ← BitVec.ofNat_toNat]
    exact ⟨rfl, s.regWritten_setReg d _⟩
  · rw [State.writeInput_of_not_reg b running hw]
    exact ⟨rfl, s.faults_raise _⟩

/-- Settles O57: what an accepted accessor write leaves, item by item. -/
theorem accessorRules : Obligations.AccessorRules := by
  intro s it v
  refine ⟨fun t accepted => ?_, State.assign_none_iff, State.access_none_iff⟩
  have assigned := State.assigned_of_assign accepted
  exact ⟨assigned.reads_back, fun o ho => assigned.access_eq ho, assigned.sp_eq, assigned.control⟩

/-- Settles O58: on a core that is not Running STEP and WRITE_INPUT do nothing, and the others write neither the status
nor the fault record of any core. -/
theorem onlyResetRevives : Obligations.OnlyResetRevives := by
  intro σ tr terminated notReset
  cases tr with
  | reset => exact absurd rfl notReset
  | load image =>
    obtain ⟨-, h⟩ | ⟨-, h⟩ := σ.transact_load_cases image
    · rw [h]
      exact ⟨rfl, rfl⟩
    · rw [h]
      exact ⟨rfl, rfl⟩
  | step =>
    have hc := State.stepped_eq (step_of_not_running terminated)
    exact ⟨congrArg State.status hc, congrArg State.fault hc⟩
  | pullEvent => exact ⟨rfl, rfl⟩
  | writeInput w b =>
    obtain ⟨r, h⟩ := σ.transact_writeInput w b
    rw [h, State.writeInput_of_not_running w b terminated]
    exact ⟨rfl, rfl⟩
  | access it =>
    rw [σ.transact_access_core]
    exact ⟨rfl, rfl⟩
  | assign it v =>
    obtain ⟨t, accepted, h⟩ | ⟨-, h⟩ := σ.transact_assign_cases it v
    · have control := (State.assigned_of_assign accepted).control
      rw [h]
      exact ⟨control.status, control.fault⟩
    · rw [h]
      exact ⟨rfl, rfl⟩

/-- Settles O60: an index in range is read, and the replies are those of the two cases of each accessor transaction. -/
theorem accessorReads : Obligations.AccessorReads := by
  intro σ
  refine ⟨rfl, fun i => dif_pos i.isLt, fun a range => if_pos range, fun count => ⟨_, rfl, ?_⟩,
    fun j range => if_pos range, fun it => ⟨σ.transact_access_core it, fun v => ?_⟩, fun it v refused => ?_⟩
  · rw [BitVec.toNat_ofNat]
    omega
  · obtain ⟨u, hu, h⟩ | ⟨hu, h⟩ := σ.transact_access_cases it
    · simp [h, hu]
    · simp [h, hu]
  · obtain ⟨t, -, h⟩ | ⟨hnone, h⟩ := σ.transact_assign_cases it v
    · rw [h] at refused
      cases refused
    · rw [h]
      exact ⟨hnone, rfl⟩

end Sys2Proof.Machine
end

section
/-! PROOFS. The invariant of the states (spec/10_state.md, 20_memory.md R60), and registers no transaction has written
(10_state.md R33). -/

namespace Sys2Proof.Machine

/-! ## Updates keep the invariant -/

namespace State.Inv

section
variable {s : State}

theorem setReg (h : s.Inv) (d : Fin 8) (v : Word) : (s.setReg d v).Inv := ⟨h.mem, h.stk, h.sp, h.fault⟩

theorem setPc (h : s.Inv) (v : Word) : (s.setPc v).Inv := ⟨h.mem, h.stk, h.sp, h.fault⟩

theorem emit (h : s.Inv) (e : Event) : (s.emit e).Inv := ⟨h.mem, h.stk, h.sp, h.fault⟩

theorem pullEvent (h : s.Inv) : s.pullEvent.2.Inv := ⟨h.mem, h.stk, h.sp, h.fault⟩

theorem setWord (h : s.Inv) {a : Nat} (v : Word) (range : a < 32768) : (s.setWord a v).Inv :=
  ⟨Memory.wf_writeWord v h.mem range, h.stk, h.sp, h.fault⟩

theorem setSlot (h : s.Inv) {j : Nat} (v : Word) (range : j < 4096) : (s.setSlot j v).Inv :=
  ⟨h.mem, Stack.wf_write v h.stk range, h.sp, h.fault⟩

theorem setSp (h : s.Inv) {n : Nat} (range : n ≤ 4096) : (s.setSp n).Inv := ⟨h.mem, h.stk, range, h.fault⟩

theorem raise (h : s.Inv) (f : Fault) : (s.raise f).Inv := ⟨h.mem, h.stk, h.sp, by simp⟩

/-- A Running core has no fault record, and `halt` makes none. -/
theorem halt (h : s.Inv) (running : s.status = .running) : s.halt.Inv :=
  ⟨h.mem, h.stk, h.sp, by simp [h.fault, running]⟩

theorem loaded (h : s.Inv) {image : List Byte} (fits : image.length ≤ 65536) :
    ({ s with mem := Memory.ofImage 0 image } : State).Inv :=
  ⟨Memory.wf_ofImage image fits, h.stk, h.sp, h.fault⟩

theorem writeInput (h : s.Inv) (w : Word) (b : Byte) : (s.writeInput w b).2.Inv := by
  obtain hw | ⟨d, hw⟩ | ⟨f, hw⟩ := s.writeInput_cases w b
  · exact hw ▸ h
  · exact hw ▸ h.setReg d _
  · exact hw ▸ h.raise f

theorem assigned (h : s.Inv) {t : State} {it : Item} {v : Word} (ht : Assigned s v it t) : t.Inv := by
  cases ht with
  | pc => exact h.setPc v
  | reg i => exact h.setReg i v
  | mem range => exact h.setWord v range
  | sp range => exact h.setSp range
  | slot range => exact h.setSlot v range

theorem effect (h : s.Inv) (running : s.status = .running) {i : Instr} {t : State} (he : Effect i s t) : t.Inv := by
  have count := h.sp
  cases he with
  | raised f => exact h.raise f
  | wrote d v => exact h.setReg d v
  | jumped v => exact h.setPc v
  | nothing => exact h
  | pushed v _ room => exact (h.setSlot v room).setSp room
  | called v _ room => exact ((h.setSlot s.pc room).setSp room).setPc v
  | popped d => exact (h.setSp (by omega)).setReg d _
  | returned => exact (h.setSp (by omega)).setPc _
  | stored addr v _ range => exact h.setWord v (Nat.lt_succ_of_le range)
  | emitted e => exact h.emit e
  | halted => exact h.halt running

theorem step (h : s.Inv) {t : State} (ht : Machine.step s = .next t) : t.Inv := by
  by_cases running : s.status = .running
  · obtain ⟨p, ⟨f, rfl⟩ | ⟨i, -, he⟩⟩ := step_effect running ht
    · exact (h.setPc p).raise f
    · exact (h.setPc p).effect running he
  · rw [step_of_not_running running] at ht
    exact Host.Outcome.next.inj ht ▸ h

end

end State.Inv

theorem State.reset_inv : State.reset.Inv := ⟨rfl, rfl, Nat.zero_le _, by simp [State.reset]⟩

/-! ## A register a transaction does not write -/

section
variable {s : State} {e : Fin 8}

theorem State.writeInput_reg_eq {w : Word} (b : Byte) (h : ¬ (s.status = .running ∧ w.toNat = 0x8000 + e.val)) :
    (s.writeInput w b).2.reg e = s.reg e := by
  by_cases running : s.status = .running
  · by_cases base : 0x8000 ≤ w.toNat ∧ w.toNat ≤ 0x8007
    · have hw : w.toNat = 0x8000 + (⟨w.toNat - 0x8000, by omega⟩ : Fin 8).val := by simp only; omega
      rw [State.writeInput_of_reg b running hw]
      refine State.setReg_reg_ne _ _ fun he => h ⟨running, ?_⟩
      rw [he]
      exact hw
    · rw [State.writeInput_of_not_reg b running (by omega), State.raise_reg]
  · rw [State.writeInput_of_not_running w b running]

theorem State.stepped_reg_eq
    (h : ¬ (s.stepped.status ≠ .faulted ∧ ∃ i, s.Due i ∧ i.destination = some (.reg e))) :
    s.stepped.reg e = s.reg e := by
  have hstep := step_eq_stepped s
  by_cases running : s.status = .running
  · by_cases faulted : s.stepped.status = .faulted
    · obtain ⟨p, f, ht⟩ := step_faulted running hstep faulted
      rw [ht, State.raise_reg, State.setPc_reg]
    · obtain ⟨p, ⟨f, ht⟩ | ⟨i, due, effect⟩⟩ := step_effect running hstep
      · rw [ht, State.raise_reg, State.setPc_reg]
      · rw [effect.reg_eq fun hi => h ⟨faulted, i, due, hi⟩, State.setPc_reg]
  · rw [step_of_not_running running] at hstep
    rw [← Host.Outcome.next.inj hstep]

end

theorem State.reset_reg (e : Fin 8) : State.reset.reg e = 0 := by
  simp [State.reg, State.reset]

theorem State.reset_wordAt (a : Nat) : State.reset.wordAt a = 0 :=
  (by decide : (0#8 ++ 0#8 : BitVec (8 + 8)) = 0)

/-- A register that holds 0 holds it still after a transaction that does not write it. -/
theorem Session.transact_reg_zero {σ : Session} {tr : Transaction} {e : Fin 8} (zero : σ.core.reg e = 0)
    (h : ¬ tr.Writes σ.core e) : (σ.transact tr).2.core.reg e = 0 := by
  cases tr with
  | reset => exact State.reset_reg e
  | load image =>
    obtain ⟨-, hload⟩ | ⟨-, hload⟩ := σ.transact_load_cases image
    · rw [hload]
      exact zero
    · rwa [hload]
  | step => exact (State.stepped_reg_eq h).trans zero
  | pullEvent => exact zero
  | writeInput w b =>
    obtain ⟨r, hinput⟩ := σ.transact_writeInput w b
    rw [hinput]
    exact (State.writeInput_reg_eq b h).trans zero
  | access it => rwa [σ.transact_access_core]
  | assign it v =>
    obtain ⟨t, accepted, hassign⟩ | ⟨-, hassign⟩ := σ.transact_assign_cases it v
    · rw [hassign]
      exact ((State.assigned_of_assign accepted).reg_eq h).trans zero
    · rwa [hassign]

/-- The run from any session whose register holds 0, none of its transactions writing the register. -/
theorem Session.run_reg_zero {e : Fin 8} (trs : List Transaction) {σ : Session} (zero : σ.core.reg e = 0)
    (h : ∀ before tr after, trs = before ++ tr :: after → ¬ tr.Writes (σ.run before).2.core e) :
    (σ.run trs).2.core.reg e = 0 := by
  induction trs generalizing σ with
  | nil => exact zero
  | cons tr trs ih =>
    exact ih (Session.transact_reg_zero zero (h [] tr trs rfl))
      fun before tr' after htrs => h (tr :: before) tr' after (congrArg (tr :: ·) htrs)

/-! ## The obligations -/

/-- Settles O13: the stores are empty and the registers are all 0. -/
theorem resetState : Obligations.ResetState :=
  ⟨State.reset_wordAt, State.reset_reg, fun _ => rfl, rfl, rfl, rfl, rfl, rfl⟩

/-- Settles O49: empty stores are canonical, and a Running core has no fault record. -/
theorem resetMeetsInvariant : Obligations.ResetMeetsInvariant := State.reset_inv

/-- Settles O50: every effect on a Running core keeps the invariant. -/
theorem stepKeepsInvariant : Obligations.StepKeepsInvariant := fun _ _ h ht => h.step ht

/-- Settles O51: each transaction leaves the core as it was or makes one update that keeps the invariant. -/
theorem transactionsKeepInvariant : Obligations.TransactionsKeepInvariant := by
  intro σ tr h
  cases tr with
  | reset => exact State.reset_inv
  | load image =>
    obtain ⟨⟨-, -, fits⟩, hload⟩ | ⟨-, hload⟩ := σ.transact_load_cases image
    · exact hload ▸ h.loaded fits
    · exact hload ▸ h
  | step => exact h.step (step_eq_stepped _)
  | pullEvent => exact h.pullEvent
  | writeInput w b =>
    obtain ⟨r, hinput⟩ := σ.transact_writeInput w b
    exact hinput ▸ h.writeInput w b
  | access it => exact σ.transact_access_core it ▸ h
  | assign it v =>
    obtain ⟨t, accepted, hassign⟩ | ⟨-, hassign⟩ := σ.transact_assign_cases it v
    · exact hassign ▸ h.assigned (State.assigned_of_assign accepted)
    · exact hassign ▸ h

/-- Settles O14: by the step lemma, and by induction over the run. -/
theorem unwrittenRegistersReadZero : Obligations.UnwrittenRegistersReadZero := by
  refine ⟨fun σ tr e zero h => ?_, fun trs e h => ?_⟩
  · have zero' := Session.transact_reg_zero zero h
    exact ⟨zero', by rw [State.val_reg, zero']⟩
  · have zero := Session.run_reg_zero trs (State.reset_reg e) h
    exact ⟨zero, by rw [State.val_reg, zero]⟩

end Sys2Proof.Machine
end

section
/-! PROOFS. The instruction a loaded image begins with (spec/70_reset_and_hazards.md section 2), and the state image
(20_memory.md R77). -/

namespace Sys2Proof

theorem Opcode.operandCount_le (k : Opcode) : k.operandCount ≤ 3 := by
  cases k <;> decide

theorem encode_length_le (i : Instr) : (encode i).length ≤ 4 := by
  have := i.opcode.operandCount_le
  rw [encode, List.length_cons, Instr.length_operandWords]
  omega

end Sys2Proof

namespace Sys2Proof.Machine

/-! ## The words the first STEP after RESET and LOAD may fetch -/

/-- The state after RESET and a LOAD of the words `ws`. -/
def State.loaded (ws : List Word) : State := { State.reset with mem := Memory.ofImage 0 (bytesOfWords ws) }

theorem State.loadImage_bytesOfWords {ws : List Word} (fits : ws.length ≤ 32768) :
    State.reset.loadImage (bytesOfWords ws) = some (State.loaded ws) :=
  State.reset.loadImage_ok (by rw [bytesOfWords_length]; omega) (by rw [bytesOfWords_length]; omega)

theorem State.loaded_window (ws : List Word) : (State.loaded ws).window = (List.range 4).map fun k => ws.getD k 0 := by
  apply List.map_congr_left
  intro k hk
  have low : (0 + k) % 32768 = k := by
    rw [List.mem_range, Config.maxOperands_eq] at hk
    omega
  show Memory.readWord (Memory.ofImage 0 (bytesOfWords ws)) ((0 + k) % 32768) = ws.getD k 0
  rw [low]
  exact Memory.readWord_ofImage ws k

/-- A fetch window begins with the encoding the image begins with. -/
theorem State.loaded_window_take (i : Instr) (ws : List Word) :
    (State.loaded (encode i ++ ws)).window.take (encode i).length = encode i := by
  have short := encode_length_le i
  rw [State.loaded_window, ← List.map_take, List.take_range, Nat.min_eq_left short, map_getD_range (by simp),
    List.take_left]

/-! ## The parts of a state image -/

theorem getD_map_range (f : Nat → Word) {n k : Nat} (h : k < n) : ((List.range n).map f).getD k 0#16 = f k := by
  simp [h]

section
variable (s : State)

theorem State.toImage_length : s.toImage.length = 36874 := by
  simp [State.toImage]

theorem State.toImage_pc : s.toImage.getD 0 0 = s.pc := by
  simp [State.toImage]

theorem State.toImage_reg (i : Fin 8) : s.toImage.getD (1 + i.val) 0 = s.reg i := by
  have hi : i.val < s.x.toList.length := by simp
  rw [State.toImage, List.append_assoc, List.append_assoc, List.append_assoc, List.singleton_append, Nat.add_comm,
    List.getD_cons_succ, List.getD_append _ _ _ _ hi, List.getD_eq_getElem _ _ hi]
  simp [State.reg]

theorem State.toImage_wordAt {a : Nat} (range : a < 32768) :
    ((s.toImage.drop 9).take 32768).getD a 0#16 = s.wordAt a := by
  rw [State.toImage, List.append_assoc, List.append_assoc, List.drop_left' (by simp), List.take_left' (by simp)]
  exact getD_map_range s.wordAt range

theorem State.toImage_sp : s.toImage.getD 32777 0 = BitVec.ofNat 16 s.sp := by
  rw [State.toImage, List.append_assoc, List.getD_append_right _ _ _ _ (by simp)]
  simp

theorem State.toImage_slot {j : Nat} (range : j < 4096) :
    ((s.toImage.drop 32778).take 4096).getD j 0#16 = s.slot j := by
  rw [State.toImage, List.drop_left' (by simp), List.take_of_length_le (by simp)]
  exact getD_map_range s.slot range

end

/-! ## The obligations -/

/-- Settles O54: the fetch window from address 0 is the encoding and what follows it, which decodes to the instruction. -/
theorem loadedInstructionIsDue : Obligations.LoadedInstructionIsDue := by
  intro i ws hi fits
  refine ⟨_, State.loadImage_bytesOfWords fits, rfl, Nat.zero_le _, ?_⟩
  rw [← List.take_append_drop (encode i).length (State.window _), State.loaded_window_take]
  exact ⟨_, decodeOfEncode i _ hi⟩

/-- Settles O59: each part of the image is the part of the state it was made from, and the stores made of words read as
those words. -/
theorem imageRestoresState : Obligations.ImageRestoresState := by
  intro s count
  have sp : (s.toImage.getD 32777 0).toNat = s.sp := by
    rw [State.toImage_sp, BitVec.toNat_ofNat]
    omega
  refine ⟨_, if_pos ⟨s.toImage_length.ge, sp.trans_le count⟩, s.toImage_pc, fun i => ?_, fun a range => ?_, sp,
    fun j range => ?_, rfl, rfl, rfl⟩
  · rw [← s.toImage_reg i]
    simp [State.reg]
  · exact (Memory.readWord_ofImage _ a).trans (s.toImage_wordAt range)
  · have slots := Stack.read_ofWords ((s.toImage.drop 32778).take 4096) 0 j
    rw [Nat.zero_add] at slots
    exact slots.trans (s.toImage_slot range)

end Sys2Proof.Machine
end
